-- ==== Sys2Proof/Word.lean ====
section
/-!
DEFINITION. The value types of the command port and of the registers (00_scope R9, R12): 32-bit words, and F values, which are
held and moved as their IEEE 754 binary32 bit pattern. What an F value is worth, and every operator on it, is in Machine/Float.lean.
-/

namespace Sys2Proof

/-- A `word` or a `u32` (R12): 32 bits, bit 0 the least significant (R9). -/
abbrev Word := BitVec 32

/-- An F value (R12): bit 31 the sign, bits 30:23 the biased exponent, bits 22:0 the fraction. -/
abbrev F := BitVec 32

/-- One byte of a host's serialisation of a transaction (R73). -/
abbrev Byte := BitVec 8

end Sys2Proof
end

