-- ==== Sys2Proof/Syntax.lean ====
section
/-!
DEFINITION. The command set as syntax: agents, transactions, opcodes, the instruction type (one constructor per row of the opcode
table), parameters, registers and their names, fault causes, pseudo-instructions and note events.
-/

namespace Sys2Proof

/-- The two host agents that issue commands (00_scope R24, 20_memory R77). -/
inductive Agent where
  | audio
  | control
  deriving DecidableEq, Repr, Inhabited

/-- A command transaction (30_encoding R90): the command word and the data word, presented together. -/
structure Transaction where
  cmd  : Word
  data : Word
  deriving DecidableEq, Repr

/-- The causes a fault is recorded with (60_exceptions R231). -/
inductive FaultCause where
  | illegalOpcode
  | mbzNonzero
  | badChannelCount
  | badRegAddress
  deriving DecidableEq, Repr

/-- The nine opcodes in use (30_encoding R94); 0x9 to 0xF are reserved (R95). -/
inductive Opcode where
  | nop | prepare | beginBlock | noteOn | noteOff | allSoundOff | tick | writeParam | readReg
  deriving DecidableEq, Repr

/-- A decoded command (30_encoding R94, R98). Field operands are unsigned values zero-extended to 32 bits (R93); `srw` and `valw`
are the data word as it stands. The data word of a command that ignores it (R97) is no part of the instruction. -/
inductive Instr where
  | nop
  | prepare (nchf srw : Word)
  | beginBlock
  | noteOn (note : Word)
  | noteOff (note : Word)
  | allSoundOff
  | tick
  | writeParam (idx valw : Word)
  | readReg (addr : Word)
  deriving DecidableEq, Repr

/-- The ten parameters, in the order of the parameter table (10_state R33). -/
inductive Param where
  | gain | attack | decay | sustain | release | pitchSemitones | glideTime | drive | color | toneCutoff
  deriving DecidableEq, Repr

/-- Ten F values, one per parameter: the live cells PCELL (10_state R33), or their snapshot PSNAP (R34). -/
structure Params where
  gain           : F
  attack         : F
  decay          : F
  sustain        : F
  release        : F
  pitchSemitones : F
  glideTime      : F
  drive          : F
  color          : F
  toneCutoff     : F
  deriving DecidableEq, Repr

/-- The registers READ_REG can name (20_memory R71). -/
inductive Reg where
  | pcell (p : Param)
  | psnap (p : Param)
  | sr | nch | status
  | phase | phaseDelta | curFreq | tgtFreq | glideRem | toneZ0 | toneZ1
  | envStage | envLevel | envRelStart
  deriving DecidableEq, Repr

/-- The note events of a block (30_encoding R102). -/
inductive NoteEvent where
  | noteOn (note : Word)
  | noteOff (note : Word)
  | allSoundOff
  deriving DecidableEq, Repr

/-- The pseudo-instructions (30_encoding R102). -/
inductive Pseudo where
  | render (n : Nat)
  | block (n : Nat) (events : List NoteEvent)
  | loadPreset (values : Params)
  | setDefaults
  deriving DecidableEq, Repr

end Sys2Proof
end

