-- ==== Sys2Proof/WellFormed.lean ====
section
/-!
DEFINITION. Which instructions the command word can carry: every field operand fits its field (30_encoding R92). An operand outside
its field's width is an assembly error (R101). An operand value that fits its field but that the command's rule does not accept (a
channel count of 0 or 3, an index of 10 to 15, an unmapped address) is well-formed: the command's rule decides what it does (R96).
-/

namespace Sys2Proof

/-- Every field operand fits its field: NCHF 2 bits, NOTE 7 bits, IDX 4 bits, ADDR 8 bits (R92). -/
def Instr.wellFormed : Instr → Bool
  | .nop             => true
  | .prepare nchf _  => nchf < 4#32
  | .beginBlock      => true
  | .noteOn note     => note < 128#32
  | .noteOff note    => note < 128#32
  | .allSoundOff     => true
  | .tick            => true
  | .writeParam idx _ => idx < 16#32
  | .readReg addr    => addr < 256#32

end Sys2Proof
end

