-- ==== Sys2Proof/Decode.lean ====
section
/-!
DEFINITION. Decoding, total on every pair of words (30_encoding R98) and on every byte stream (20_memory R73), then the encoder and
the expansion of the pseudo-instructions (30_encoding R102). A malformed command word is rejected with the cause its fault records.
-/

namespace Sys2Proof

/-- The opcode of `cmd[31:28]`; `none` for the reserved codes 0x9 to 0xF (R94, R95). -/
def Opcode.ofBits (b : BitVec 4) : Option Opcode :=
  match b.toNat with
  | 0x0 => some .nop
  | 0x1 => some .prepare
  | 0x2 => some .beginBlock
  | 0x3 => some .noteOn
  | 0x4 => some .noteOff
  | 0x5 => some .allSoundOff
  | 0x6 => some .tick
  | 0x7 => some .writeParam
  | 0x8 => some .readReg
  | _   => none

/-- The code of an opcode (R94). -/
def Opcode.code : Opcode → BitVec 4
  | .nop         => 0x0#4
  | .prepare     => 0x1#4
  | .beginBlock  => 0x2#4
  | .noteOn      => 0x3#4
  | .noteOff     => 0x4#4
  | .allSoundOff => 0x5#4
  | .tick        => 0x6#4
  | .writeParam  => 0x7#4
  | .readReg     => 0x8#4

/-- The must-be-zero bits of the opcode's format: R98's table MBZ_MASK. -/
def Opcode.mbzMask : Opcode → Word
  | .nop         => 0x0FFFFFFF#32
  | .prepare     => 0x0FFFFFFC#32
  | .beginBlock  => 0x0FFFFFFF#32
  | .noteOn      => 0x0FFFFF80#32
  | .noteOff     => 0x0FFFFF80#32
  | .allSoundOff => 0x0FFFFFFF#32
  | .tick        => 0x0FFFFFFF#32
  | .writeParam  => 0x0FFFFFF0#32
  | .readReg     => 0x0FFFFF00#32

/-- The operands of a command word whose opcode is `o` (R92, R93): fields zero-extended to 32 bits, the data word as it stands. -/
def operandsOf (o : Opcode) (cmd data : Word) : Instr :=
  match o with
  | .nop         => .nop
  | .prepare     => .prepare ((cmd.extractLsb' 0 2).setWidth 32) data
  | .beginBlock  => .beginBlock
  | .noteOn      => .noteOn ((cmd.extractLsb' 0 7).setWidth 32)
  | .noteOff     => .noteOff ((cmd.extractLsb' 0 7).setWidth 32)
  | .allSoundOff => .allSoundOff
  | .tick        => .tick
  | .writeParam  => .writeParam ((cmd.extractLsb' 0 4).setWidth 32) data
  | .readReg     => .readReg ((cmd.extractLsb' 0 8).setWidth 32)

/-- Decoding of a transaction (R98): the reserved opcodes are refused first, then a 1 in a must-be-zero bit. -/
def decode (t : Transaction) : Except FaultCause Instr :=
  match Opcode.ofBits (t.cmd.extractLsb' 28 4) with
  | none => .error .illegalOpcode
  | some o =>
    if t.cmd &&& o.mbzMask = 0#32 then .ok (operandsOf o t.cmd t.data) else .error .mbzNonzero

/-- A word from its four bytes, least significant first (R73). -/
def wordOfBytes (b0 b1 b2 b3 : Byte) : Word :=
  (b3.setWidth 32 <<< 24) ||| (b2.setWidth 32 <<< 16) ||| (b1.setWidth 32 <<< 8) ||| b0.setWidth 32

/-- The four bytes of a word, least significant first (R73). -/
def bytesOfWord (w : Word) : List Byte :=
  [w.extractLsb' 0 8, w.extractLsb' 8 8, w.extractLsb' 16 8, w.extractLsb' 24 8]

/-- The first transaction of a byte stream and the rest of it; `none` where fewer than eight bytes are there (R73, R90). -/
def transactionOfBytes : List Byte → Option (Transaction × List Byte)
  | b0 :: b1 :: b2 :: b3 :: b4 :: b5 :: b6 :: b7 :: rest =>
    some (⟨wordOfBytes b0 b1 b2 b3, wordOfBytes b4 b5 b6 b7⟩, rest)
  | _ => none

/-- A transaction as bytes: the command word precedes the data word (R73). -/
def bytesOfTransaction (t : Transaction) : List Byte :=
  bytesOfWord t.cmd ++ bytesOfWord t.data

/-- Decoding of a byte stream's first transaction, with the rest of the stream. -/
def decodeBytes (bs : List Byte) : Option (Except FaultCause Instr × List Byte) :=
  (transactionOfBytes bs).map fun p => (decode p.1, p.2)

/-- The transaction whose bits are `w`, numbered as spec/opcode_table.json numbers them: the command word is bits 31:0, the data
word bits 63:32, and every bit from `nbits` on is 0. -/
def tableTransaction (nbits w : Nat) : Transaction :=
  ⟨BitVec.ofNat 32 (w % 2 ^ nbits), BitVec.ofNat 32 (w % 2 ^ nbits / 2 ^ 32)⟩

/-- What the decoder reads from the bits `w` of a row of the opcode table; `none` where it refuses them. -/
def decodeTableWord (nbits w : Nat) : Option Instr :=
  match decode (tableTransaction nbits w) with
  | .ok i    => some i
  | .error _ => none

/-- The opcode of an instruction (R94). -/
def Instr.opcode : Instr → Opcode
  | .nop            => .nop
  | .prepare _ _    => .prepare
  | .beginBlock     => .beginBlock
  | .noteOn _       => .noteOn
  | .noteOff _      => .noteOff
  | .allSoundOff    => .allSoundOff
  | .tick           => .tick
  | .writeParam _ _ => .writeParam
  | .readReg _      => .readReg

/-- The operand field of an instruction, in the low bits of the command word (R91, R92). -/
def Instr.field : Instr → Word
  | .nop              => 0#32
  | .prepare nchf _   => nchf
  | .beginBlock       => 0#32
  | .noteOn note      => note
  | .noteOff note     => note
  | .allSoundOff      => 0#32
  | .tick             => 0#32
  | .writeParam idx _ => idx
  | .readReg addr     => addr

/-- The data word of an instruction: 0 where the command ignores it (R92, R101). -/
def Instr.dataWord : Instr → Word
  | .prepare _ srw     => srw
  | .writeParam _ valw => valw
  | .nop | .beginBlock | .noteOn _ | .noteOff _ | .allSoundOff | .tick | .readReg _ => 0#32

/-- The words of a well-formed instruction (R91, R92): the opcode in bits 31:28, the operand field in the low bits. -/
def encode (i : Instr) : Transaction :=
  ⟨(i.opcode.code.setWidth 32 <<< 28) ||| i.field, i.dataWord⟩

/-- The command of a note event (R102). -/
def NoteEvent.toInstr : NoteEvent → Instr
  | .noteOn n    => .noteOn n
  | .noteOff n   => .noteOff n
  | .allSoundOff => .allSoundOff

/-- The ten values of a parameter set, in index order (10_state R33). -/
def Params.toList (p : Params) : List F :=
  [p.gain, p.attack, p.decay, p.sustain, p.release, p.pitchSemitones, p.glideTime, p.drive, p.color, p.toneCutoff]

/-- The parameter defaults (10_state R33), as SET_DEFAULTS writes them. -/
def defaultParams : Params :=
  { gain := 0x3E800000#32, attack := 0x3BA3D70A#32, decay := 0x3D4CCCCD#32, sustain := 0x3F4CCCCD#32
    release := 0x3E19999A#32, pitchSemitones := 0x00000000#32, glideTime := 0x00000000#32, drive := 0x3DCCCCCD#32
    color := 0x00000000#32, toneCutoff := 0x43960000#32 }

/-- The ten WRITE_PARAMs of a LOAD_PRESET, in index order (R102). -/
def presetInstrs (values : Params) : List Instr :=
  values.toList.mapIdx fun i v => .writeParam (BitVec.ofNat 32 i) v

/-- The expansion of a pseudo-instruction (R102). -/
def Pseudo.expand : Pseudo → List Instr
  | .render n         => List.replicate n .tick
  | .block n events   => .beginBlock :: (events.map NoteEvent.toInstr ++ List.replicate n .tick)
  | .loadPreset vs    => presetInstrs vs
  | .setDefaults      => presetInstrs defaultParams

end Sys2Proof
end

