-- ==== Sys2Proof/Config.lean ====
section
/-!
DEFINITION. What the spec leaves to configuration, as constants without a body: no proof can see a value of them, so a claim holds
whatever they are. The four function units are taken through `MathUnits.conform` (Machine/Units.lean), which gives them the
properties of 00_scope R17 and leaves them free elsewhere.
-/

namespace Sys2Proof

/-- The F operators, as the argument that tells one operator's free NaN from another's. -/
inductive FOp where
  | add | sub | mul | div
  deriving DecidableEq, Repr

/-- The hardware's sine before the properties of R17 are imposed (00_scope R17, decision D2). Log 1. -/
opaque Config.rawSin : F → F

/-- The hardware's hyperbolic tangent before the properties of R17 are imposed. Log 1. -/
opaque Config.rawTanh : F → F

/-- The hardware's natural exponential before the properties of R17 are imposed. Log 1. -/
opaque Config.rawExp : F → F

/-- The hardware's base-2 exponential before the properties of R17 are imposed. Log 1. -/
opaque Config.rawExp2 : F → F

/-- The sign and fraction bits of the NaN an operator answers: a free value of the operator and its operands. The spec says
that a NaN results and not which one (00_scope R13). Log 3. -/
opaque Config.nanBits : FOp → F → F → Word

/-- What ROUND_SAT_U32 answers for a NaN, to which the block never applies it (00_scope R16). Log 4. -/
opaque Config.roundOfNaN : F → Word

/-- The arbiter's choice when both agents have a command pending: a free value of the number of choices made before
(20_memory R77: the interleaving is left open). Log 6. -/
opaque Config.arbiter : Nat → Agent

end Sys2Proof
end

