-- ==== Sys2Proof/Machine/Float.lean ====
section
/-!
DEFINITION. F arithmetic: IEEE 754 binary32 with roundTiesToEven and subnormals kept (00_scope R7, R12–R16, R25), computed exactly on
integers and rounded once. A finite F value is an integer number of units of 2^−149, the smallest subnormal. Log 13 says what is taken
from IEEE 754 itself.
-/

namespace Sys2Proof.Machine

/-! ### Fields and classes of a bit pattern -/

/-- The sign bit (R12). -/
def fSign (x : F) : Bool := x.msb

/-- Bits 30:0, the magnitude's bit pattern; magnitudes are ordered as their patterns are. -/
def fMag (x : F) : Nat := x.toNat % 2 ^ 31

/-- The magnitude pattern of infinity: exponent field 255, fraction 0. -/
def infMag : Nat := 0x7F800000

/-- `isNaN` (R15). -/
def isNaN (x : F) : Bool := infMag < fMag x

/-- An infinity of either sign. -/
def isInf (x : F) : Bool := fMag x == infMag

/-- `isFinite` (R15): neither an infinity nor a NaN. -/
def isFinite (x : F) : Bool := fMag x < infMag

/-- The value of a magnitude pattern in units of 2^−149. For the pattern of infinity this is 2^277, above every finite magnitude. -/
def magUnits (m : Nat) : Nat :=
  if m < 2 ^ 23 then m else (2 ^ 23 + m % 2 ^ 23) * 2 ^ (m / 2 ^ 23 - 1)

/-- The value of a non-NaN F value in units of 2^−149. -/
def fUnits (x : F) : Int :=
  if fSign x then -(magUnits (fMag x) : Int) else (magUnits (fMag x) : Int)

/-! ### Rounding -/

/-- The integer nearest to `num / den`, ties to even. -/
def roundEven (num den : Nat) : Nat :=
  let q := num / den
  let r := num % den
  if 2 * r < den then q else if den < 2 * r then q + 1 else q + q % 2

/-- The magnitude pattern nearest to `num / den` units of 2^−149, ties to even, infinity past the largest finite value. The
rounded significand is added to the exponent part, so a carry out of the significand moves to the next exponent by itself. -/
def roundMag (num den : Nat) : Nat :=
  let k := Nat.log2 (num / den) - 23
  min (k * 2 ^ 23 + roundEven num (den * 2 ^ k)) infMag

/-- The F value with the given sign and magnitude pattern. -/
def packF (neg : Bool) (m : Nat) : F :=
  BitVec.ofNat 32 (if neg then 2 ^ 31 + m else m)

/-- `num / den` units of 2^−149 with a sign, rounded to FMT (R13). -/
def roundF (neg : Bool) (num den : Nat) : F := packF neg (roundMag num den)

/-- The NaN an operator answers: its sign and fraction are free. A fraction of 0 would read as an infinity, so it is never left 0.
Log 3. -/
def freeNaN (op : FOp) (a b : F) : F :=
  let w := Config.nanBits op a b
  if w.extractLsb' 0 23 = 0#23 then w ||| 0x7FC00000#32 else w ||| 0x7F800000#32

/-! ### Operators (R13) -/

/-- `-f a`: flips the sign bit, exact. -/
def fneg (a : F) : F := a ^^^ 0x80000000#32

/-- The IEEE 754 sum, with `nan` for the cases that have no value. An exact zero sum of unlike signs is +0.0. -/
def addOr (nan a b : F) : F :=
  if isNaN a || isNaN b then nan
  else if isInf a then (if isInf b && fSign a != fSign b then nan else a)
  else if isInf b then b
  else
    let n := fUnits a + fUnits b
    if n = 0 then packF (fSign a && fSign b) 0 else roundF (decide (n < 0)) n.natAbs 1

/-- `a +f b`. -/
def fadd (a b : F) : F := addOr (freeNaN .add a b) a b

/-- `a -f b`: the sum of `a` and `-f b`. -/
def fsub (a b : F) : F := addOr (freeNaN .sub a b) a (fneg b)

/-- `a *f b`. -/
def fmul (a b : F) : F :=
  let s := fSign a != fSign b
  if isNaN a || isNaN b then freeNaN .mul a b
  else if isInf a || isInf b then (if fMag a = 0 || fMag b = 0 then freeNaN .mul a b else packF s infMag)
  else roundF s (magUnits (fMag a) * magUnits (fMag b)) (2 ^ 149)

/-- `a /f b`. -/
def fdiv (a b : F) : F :=
  let s := fSign a != fSign b
  if isNaN a || isNaN b then freeNaN .div a b
  else if isInf a then (if isInf b then freeNaN .div a b else packF s infMag)
  else if isInf b then packF s 0
  else if fMag b = 0 then (if fMag a = 0 then freeNaN .div a b else packF s infMag)
  else roundF s (magUnits (fMag a) * 2 ^ 149) (magUnits (fMag b))

/-! ### Comparisons (R13): false with a NaN operand; −0.0 equals +0.0 -/

/-- Neither operand is a NaN. -/
def ordered (a b : F) : Bool := !isNaN a && !isNaN b

/-- `a < b`. -/
def flt (a b : F) : Bool := ordered a b && decide (fUnits a < fUnits b)

/-- `a <= b`. -/
def fle (a b : F) : Bool := ordered a b && decide (fUnits a ≤ fUnits b)

/-- `a > b`. -/
def fgt (a b : F) : Bool := flt b a

/-- `a >= b`. -/
def fge (a b : F) : Bool := fle b a

/-- `a == b`. -/
def feq (a b : F) : Bool := ordered a b && decide (fUnits a = fUnits b)

/-! ### Literals (R14) -/

/-- +0.0. -/
def fZero : F := 0x00000000#32
/-- 0.5, the parameter COLOR_SCALE (R7). -/
def fHalf : F := 0x3F000000#32
/-- 1.0, also SR_MIN (R7). -/
def fOne : F := 0x3F800000#32
/-- 2.5, the parameter K_MAX (R7). -/
def fKMax : F := 0x40200000#32
/-- 10.0, the parameter GLIDE_CLAMP_MAX in seconds (R7). -/
def fTen : F := 0x41200000#32
/-- 12.0, the parameter SEMITONES_PER_OCTAVE (R7). -/
def fTwelve : F := 0x41400000#32
/-- 440.0, the parameter A4_HZ (R7). -/
def fA4 : F := 0x43DC0000#32
/-- TWO_PI: the binary32 value nearest 2π. -/
def twoPi : F := 0x40C90FDB#32
/-- NEG_TWO_PI. -/
def negTwoPi : F := 0xC0C90FDB#32
/-- SR_MIN, the smallest sample rate the block renders at (R7, R36). -/
def srMin : F := 0x3F800000#32

/-! ### Helpers (R12, R15, R16, R25) -/

/-- `w2f`: reads a bit pattern as an F value, exact (R12). -/
def w2f (w : Word) : F := w

/-- `f2w`: the bit pattern of an F value, exact (R12). -/
def f2w (x : F) : Word := x

/-- `clampf(v, lo, hi)` (R15): a NaN passes through. -/
def clampf (v lo hi : F) : F := if flt v lo then lo else if fgt v hi then hi else v

/-- `u2f`: a u32 to the nearest F value, ties to even (R15). -/
def u2f (n : Word) : F := roundF false (n.toNat * 2 ^ 149) 1

/-- `i2f`: an integer to F, exact for |k| ≤ 2^24 (R25). -/
def i2f (k : Int) : F := roundF (decide (k < 0)) (k.natAbs * 2 ^ 149) 1

/-- `ROUND_HALF_AWAY` (R16) of a finite value: the nearest integer, a tie away from zero. -/
def roundHalfAway (x : F) : Int :=
  let m : Nat := (2 * magUnits (fMag x) + 2 ^ 149) / 2 ^ 150
  if fSign x then -(m : Int) else (m : Int)

/-- `ROUND_SAT_U32` (R16): ROUND_HALF_AWAY limited to [0, 2^32 − 1]. An infinity saturates by its sign; the block never applies it
to a NaN, for which the answer is free (log 4). -/
def roundSatU32 (x : F) : Word :=
  if isNaN x then Config.roundOfNaN x
  else if isInf x then (if fSign x then 0#32 else 0xFFFFFFFF#32)
  else if roundHalfAway x < 0 then 0#32
  else if (2 : Int) ^ 32 - 1 < roundHalfAway x then 0xFFFFFFFF#32
  else BitVec.ofInt 32 (roundHalfAway x)

end Sys2Proof.Machine
end

