-- ==== Sys2Proof/Machine/State.lean ====
section
/-!
DEFINITION. The machine's state as plain data (10_state): the registers of R30, grouped by the unit that owns them, and the
model's own fields for the command port. `State.reset` is the power-on state of R52 and R260.
-/

namespace Sys2Proof.Machine

/-- The envelope's stages (10_state R44, 41_envelope R141). Codes 5 to 7 are never written, so no value stands for them. Log 8. -/
inductive Stage where
  | idle | attack | decay | sustain | release
  deriving DecidableEq, Repr

/-- The channel counts NCH can hold (10_state R37): 1 or 2, no other value can be stored. Log 8. -/
inductive Channels where
  | mono | stereo
  deriving DecidableEq, Repr

/-- The voice registers (10_state R38–R43). -/
structure Voice where
  /-- PHASE, the oscillator phase in radians (R38). -/
  phase      : F
  /-- PHASE_DELTA, the phase increment per sample (R39). -/
  phaseDelta : F
  /-- CUR_FREQ, the current frequency in hertz (R40). -/
  curFreq    : F
  /-- TGT_FREQ, the frequency of the most recent note (R41). -/
  tgtFreq    : F
  /-- GLIDE_REM, the glide countdown (R42). -/
  glideRem   : Word
  /-- TONE_Z[0], the low-pass memory of channel 0 (R43). -/
  toneZ0     : F
  /-- TONE_Z[1], the low-pass memory of channel 1 (R43). -/
  toneZ1     : F
  deriving DecidableEq, Repr

/-- The envelope registers (10_state R44–R46), owned by the envelope generator alone (41_envelope R140). -/
structure Env where
  /-- ENV_STAGE (R44). -/
  stage    : Stage
  /-- ENV_LEVEL (R45). -/
  level    : F
  /-- ENV_REL_START, the level at which the current release began (R46). -/
  relStart : F
  deriving DecidableEq, Repr

/-- The output frame of a TICK (30_encoding R100): one F value per output channel. -/
structure Frame where
  out0 : F
  out1 : F
  deriving DecidableEq, Repr

/-- The response to a transaction (30_encoding R100). -/
structure Response where
  rdata : Word
  frame : Option Frame
  deriving DecidableEq, Repr

/-- The state: exactly the registers of R30, then the command port. -/
structure State where
  /-- PCELL, the live parameter cells (R33). -/
  pcell      : Params
  /-- PSNAP, the per-block snapshot (R34). -/
  psnap      : Params
  /-- SR, the sample rate as last delivered (R35). -/
  sr         : F
  /-- NCH, the channel count as last delivered (R37). -/
  nch        : Channels
  /-- PHASE, PHASE_DELTA, CUR_FREQ, TGT_FREQ, GLIDE_REM, TONE_Z (R38–R43). -/
  voice      : Voice
  /-- ENV_STAGE, ENV_LEVEL, ENV_REL_START (R44–R46). -/
  env        : Env
  /-- FAULT, bit 1 of STATUS (R47). -/
  fault      : Bool
  /-- FAULT_CAUSE, bits 7:4 of STATUS (R47). -/
  faultCause : BitVec 4
  /-- The model's own: the AUDIO agent's transactions not yet taken, first one first (20_memory R77). Log 6, log 7. -/
  audio      : List Transaction
  /-- The model's own: the CONTROL agent's transactions not yet taken, first one first (20_memory R77). Log 6, log 7. -/
  control    : List Transaction
  /-- The model's own: how many choices the arbiter has made between two pending agents. Log 6. -/
  arbTurn    : Nat
  /-- The model's own: the response to the last transaction, absent before the first (30_encoding R100). Log 5. -/
  rsp        : Option Response
  deriving DecidableEq, Repr

/-- What stops the machine. No rule of the spec stops the block: a fault of the spec is recorded and the block goes on
(60_exceptions R234), so there is no constructor, nobody raises one, and no claim can rest on a stop. Safe. Log 9. -/
inductive Fault where
  deriving DecidableEq, Repr

/-- Why an instruction has no meaning. -/
inductive Refusal where
  /-- Raised only by an arm of `exec` for an instruction that has no meaning yet; no arm of this model does. Safe. -/
  | notModelled (mnemonic : String)
  deriving DecidableEq, Repr

/-- The voice registers after power-on and after PREPARE (10_state R52). -/
def Voice.zero : Voice :=
  { phase := 0#32, phaseDelta := 0#32, curFreq := 0#32, tgtFreq := 0#32, glideRem := 0#32, toneZ0 := 0#32, toneZ1 := 0#32 }

/-- The envelope registers after power-on, PREPARE and ALL_SOUND_OFF (10_state R52). -/
def Env.zero : Env :=
  { stage := .idle, level := 0#32, relStart := 0#32 }

/-- The parameter defaults of 10_state R33, which PCELL and PSNAP hold after power-on. -/
def Params.powerOn : Params :=
  { gain := 0x3E800000#32, attack := 0x3BA3D70A#32, decay := 0x3D4CCCCD#32, sustain := 0x3F4CCCCD#32
    release := 0x3E19999A#32, pitchSemitones := 0x00000000#32, glideTime := 0x00000000#32, drive := 0x3DCCCCCD#32
    color := 0x00000000#32, toneCutoff := 0x43960000#32 }

/-- The machine right after power-on reset (10_state R52, 70_reset R260), with nothing on the command port. -/
def State.reset : State :=
  { pcell := Params.powerOn, psnap := Params.powerOn, sr := 0#32, nch := .stereo, voice := Voice.zero, env := Env.zero
    fault := false, faultCause := 0#4, audio := [], control := [], arbTurn := 0, rsp := none }

end Sys2Proof.Machine
end

