-- ==== Sys2Proof/Machine/Operands.lean ====
section
/-!
DEFINITION. What the operands of a command name: a parameter by its index (10_state R33), a register by its address (20_memory R71),
a channel count (10_state R37); and the conditioning of a parameter value (40_parameters R121).
-/

namespace Sys2Proof.Machine

/-- The parameter of an index; `none` from NUM_PARAMS = 10 on (R33, R120). -/
def paramOfIndex (i : Word) : Option Param :=
  match i.toNat with
  | 0 => some .gain
  | 1 => some .attack
  | 2 => some .decay
  | 3 => some .sustain
  | 4 => some .release
  | 5 => some .pitchSemitones
  | 6 => some .glideTime
  | 7 => some .drive
  | 8 => some .color
  | 9 => some .toneCutoff
  | _ => none

/-- The value a parameter set holds for a parameter. -/
def getParam (ps : Params) : Param → F
  | .gain           => ps.gain
  | .attack         => ps.attack
  | .decay          => ps.decay
  | .sustain        => ps.sustain
  | .release        => ps.release
  | .pitchSemitones => ps.pitchSemitones
  | .glideTime      => ps.glideTime
  | .drive          => ps.drive
  | .color          => ps.color
  | .toneCutoff     => ps.toneCutoff

/-- A parameter set with one parameter's value replaced. -/
def setParam (ps : Params) (p : Param) (v : F) : Params :=
  match p with
  | .gain           => { ps with gain := v }
  | .attack         => { ps with attack := v }
  | .decay          => { ps with decay := v }
  | .sustain        => { ps with sustain := v }
  | .release        => { ps with release := v }
  | .pitchSemitones => { ps with pitchSemitones := v }
  | .glideTime      => { ps with glideTime := v }
  | .drive          => { ps with drive := v }
  | .color          => { ps with color := v }
  | .toneCutoff     => { ps with toneCutoff := v }

/-- LO: the lower bound of a parameter's range (R33). -/
def paramLo : Param → F
  | .gain           => 0x00000000#32
  | .attack         => 0x3A83126F#32
  | .decay          => 0x3A83126F#32
  | .sustain        => 0x00000000#32
  | .release        => 0x3A83126F#32
  | .pitchSemitones => 0xC1400000#32
  | .glideTime      => 0x00000000#32
  | .drive          => 0x00000000#32
  | .color          => 0xBF800000#32
  | .toneCutoff     => 0x42A00000#32

/-- HI: the upper bound of a parameter's range (R33). -/
def paramHi : Param → F
  | .gain           => 0x3F800000#32
  | .attack         => 0x40000000#32
  | .decay          => 0x40000000#32
  | .sustain        => 0x3F800000#32
  | .release        => 0x40A00000#32
  | .pitchSemitones => 0x41400000#32
  | .glideTime      => 0x3E99999A#32
  | .drive          => 0x3F800000#32
  | .color          => 0x3F800000#32
  | .toneCutoff     => 0x45FA0000#32

/-- Value conditioning `cond(i, v)` (R121): clamp to the range, store −0.0 as +0.0. -/
def condValue (p : Param) (v : F) : F :=
  let c := clampf v (paramLo p) (paramHi p)
  if feq c fZero then fZero else c

/-- The register at an address (R71); `none` for the unmapped addresses (R72). -/
def regOfAddr (a : Word) : Option Reg :=
  if a < 0x10#32 then (paramOfIndex a).map Reg.pcell
  else if a < 0x20#32 then (paramOfIndex (a - 0x10#32)).map Reg.psnap
  else
    match a.toNat with
    | 0x20 => some .sr
    | 0x21 => some .nch
    | 0x22 => some .status
    | 0x30 => some .phase
    | 0x31 => some .phaseDelta
    | 0x32 => some .curFreq
    | 0x33 => some .tgtFreq
    | 0x34 => some .glideRem
    | 0x35 => some .toneZ0
    | 0x36 => some .toneZ1
    | 0x40 => some .envStage
    | 0x41 => some .envLevel
    | 0x42 => some .envRelStart
    | _    => none

/-- The channel count an operand names (R37, R170); `none` for any other count than 1 and 2. -/
def channelsOfCount (n : Word) : Option Channels :=
  match n.toNat with
  | 1 => some .mono
  | 2 => some .stereo
  | _ => none

/-- The value NCH reads as (R37). -/
def channelCount : Channels → Word
  | .mono   => 1#32
  | .stereo => 2#32

/-- The code ENV_STAGE reads as (R44), three bits. -/
def stageCode : Stage → BitVec 3
  | .idle    => 0#3
  | .attack  => 1#3
  | .decay   => 2#3
  | .sustain => 3#3
  | .release => 4#3

end Sys2Proof.Machine
end

