-- ==== Sys2Proof/Machine/Flags.lean ====
section
/-!
DEFINITION. The flags: SR_VALID (10_state R36), the fault causes' codes (60_exceptions R231) and the STATUS view (10_state R47).
-/

namespace Sys2Proof.Machine

/-- `SR_VALID` of a sample rate: finite and at least SR_MIN (R36). -/
def rateValid (sr : F) : Bool := isFinite sr && fge sr srMin

/-- `SR_VALID` (R36): false means the block is disabled. -/
def srValid (s : State) : Bool := rateValid s.sr

/-- The code FAULT_CAUSE records for a cause (R231). -/
def causeCode : FaultCause → BitVec 4
  | .illegalOpcode   => 1#4
  | .mbzNonzero      => 2#4
  | .badChannelCount => 3#4
  | .badRegAddress   => 4#4

/-- STATUS (R47): `{24'b0, FAULT_CAUSE, 2'b0, FAULT, SR_VALID}`. -/
def statusWord (s : State) : Word :=
  0#24 ++ s.faultCause ++ 0#2 ++ BitVec.ofBool s.fault ++ BitVec.ofBool (srValid s)

end Sys2Proof.Machine
end

