-- ==== Sys2Proof/Machine/Ops.lean ====
section
/-!
DEFINITION. The operations the meanings share: answering a transaction (30_encoding R100), raising a fault (60_exceptions R234),
reading a register (44_access R220), and taking the next transaction from the two agents (20_memory R76, R77).
-/

namespace Sys2Proof.Machine

/-- A response of a register value and no frame (R100). -/
def rdataResponse (w : Word) : Response := { rdata := w, frame := none }

/-- A response of a frame; `rdata` is 0 (R100). -/
def frameResponse (f : Frame) : Response := { rdata := 0#32, frame := some f }

/-- The state with the transaction answered. -/
def answer (r : Response) (s : State) : State := { s with rsp := some r }

/-- The state with the transaction answered by `rdata` = 0 and no frame, as every command but TICK and READ_REG is (R100). -/
def answerNone (s : State) : State := answer (rdataResponse 0#32) s

/-- `raise Fault(cause)` (R234): the first fault's cause is recorded and kept, nothing else is written, and the response is 0 with
no frame. The block goes on. -/
def raiseFault (c : FaultCause) (s : State) : State :=
  if s.fault then answerNone s else answerNone { s with fault := true, faultCause := causeCode c }

/-- The value of a register as READ_REG returns it (R220): an F register's bit pattern, NCH, GLIDE_REM and ENV_STAGE zero-extended,
STATUS as R47 lays it out. -/
def readReg (s : State) : Reg → Word
  | .pcell p     => f2w (getParam s.pcell p)
  | .psnap p     => f2w (getParam s.psnap p)
  | .sr          => f2w s.sr
  | .nch         => channelCount s.nch
  | .status      => statusWord s
  | .phase       => f2w s.voice.phase
  | .phaseDelta  => f2w s.voice.phaseDelta
  | .curFreq     => f2w s.voice.curFreq
  | .tgtFreq     => f2w s.voice.tgtFreq
  | .glideRem    => s.voice.glideRem
  | .toneZ0      => f2w s.voice.toneZ0
  | .toneZ1      => f2w s.voice.toneZ1
  | .envStage    => (stageCode s.env.stage).setWidth 32
  | .envLevel    => f2w s.env.level
  | .envRelStart => f2w s.env.relStart

/-- The next transaction of the merged sequence and the state with it taken (R76, R77). Each agent's transactions keep their order;
where both agents have one pending, the arbiter's choice is free. `none` where no command has arrived. Log 6. -/
def takeTransaction (s : State) : Option (Transaction × State) :=
  match s.audio, s.control with
  | [], []           => none
  | t :: rest, []    => some (t, { s with audio := rest })
  | [], t :: rest    => some (t, { s with control := rest })
  | a :: as, c :: cs =>
    match Config.arbiter s.arbTurn with
    | .audio   => some (a, { s with audio := as, arbTurn := s.arbTurn + 1 })
    | .control => some (c, { s with control := cs, arbTurn := s.arbTurn + 1 })

end Sys2Proof.Machine
end

