-- ==== Sys2Proof/Machine/Access.lean ====
section
/-!
DEFINITION. READ_REG and NOP (44_access).
-/

namespace Sys2Proof.Machine

/-- `READ_REG(a)` (R220): the register's value, or BAD_REG_ADDRESS for an unmapped address. It changes no register otherwise. -/
def execReadReg (addr : Word) (s : State) : Host.Outcome State Fault Refusal :=
  match regOfAddr addr with
  | none   => .next (raiseFault .badRegAddress s)
  | some r => .next (answer (rdataResponse (readReg s r)) s)

/-- `NOP` (R221). -/
def execNop (s : State) : Host.Outcome State Fault Refusal :=
  .next (answerNone s)

end Sys2Proof.Machine
end

