-- ==== Sys2Proof/Machine/Parameters.lean ====
section
/-!
DEFINITION. WRITE_PARAM and BEGIN_BLOCK (40_parameters).
-/

namespace Sys2Proof.Machine

/-- The parameter cells after a write of `v` to index `i` (R120): unchanged for an index of 10 or more (R122) and for a NaN (R121). -/
def writeCell (i : Word) (v : F) (cells : Params) : Params :=
  match paramOfIndex i with
  | none   => cells
  | some p => if isNaN v then cells else setParam cells p (condValue p v)

/-- `WRITE_PARAM` (R120). -/
def execWriteParam (idx valw : Word) (s : State) : Host.Outcome State Fault Refusal :=
  .next (answerNone { s with pcell := writeCell idx (w2f valw) s.pcell })

/-- `BEGIN_BLOCK` (R123): all ten copies are one step. -/
def execBeginBlock (s : State) : Host.Outcome State Fault Refusal :=
  .next (answerNone { s with psnap := s.pcell })

end Sys2Proof.Machine
end

