-- ==== Sys2Proof/Machine/Envelope.lean ====
section
/-!
DEFINITION. The envelope generator's micro-operations (41_envelope R140). They read the snapshot and the sample rate and write the
envelope registers, which nothing else writes.
-/

namespace Sys2Proof.Machine

/-- `ENV_NOTE_ON` (R143): to ATTACK from every stage; level and release start are kept. -/
def envNoteOn (e : Env) : Env := { e with stage := .attack }

/-- `ENV_NOTE_OFF` (R144): to RELEASE from ATTACK, DECAY and SUSTAIN, taking the level as the release start; no effect in IDLE and
RELEASE. -/
def envNoteOff (e : Env) : Env :=
  match e.stage with
  | .attack | .decay | .sustain => { e with relStart := e.level, stage := .release }
  | .idle | .release            => e

/-- `ENV_RESET` (R145). -/
def envReset (_ : Env) : Env := { stage := .idle, level := fZero, relStart := fZero }

/-- `STEP_IDLE` (R148). -/
def stepIdle (e : Env) : Env := { e with level := fZero }

/-- `STEP_ATTACK` (R149). -/
def stepAttack (p : Params) (sr : F) (e : Env) : Env :=
  let den := fmul p.attack sr
  if feq den fZero then { e with level := fOne, stage := .decay }
  else
    let l := fadd e.level (fdiv fOne den)
    if fge l fOne then { e with level := fOne, stage := .decay } else { e with level := l }

/-- `STEP_DECAY` (R150). -/
def stepDecay (p : Params) (sr : F) (e : Env) : Env :=
  let den := fmul p.decay sr
  if feq den fZero then { e with level := p.sustain, stage := .sustain }
  else
    let l := fsub e.level (fdiv (fsub fOne p.sustain) den)
    if fle l p.sustain then { e with level := p.sustain, stage := .sustain } else { e with level := l }

/-- `STEP_SUSTAIN` (R151). -/
def stepSustain (p : Params) (e : Env) : Env := { e with level := p.sustain }

/-- `STEP_RELEASE` (R152). -/
def stepRelease (p : Params) (sr : F) (e : Env) : Env :=
  let den := fmul p.release sr
  if feq den fZero then { e with level := fZero, stage := .idle }
  else
    let l := fsub e.level (fdiv e.relStart den)
    if fle l fZero then { e with level := fZero, stage := .idle } else { e with level := l }

/-- `ENV_NEXT_SAMPLE` (R147): one step of the current stage; the level it returns is the level after the update. -/
def envNextSample (p : Params) (sr : F) (e : Env) : Env :=
  match e.stage with
  | .idle    => stepIdle e
  | .attack  => stepAttack p sr e
  | .decay   => stepDecay p sr e
  | .sustain => stepSustain p e
  | .release => stepRelease p sr e

end Sys2Proof.Machine
end

