-- ==== Sys2Proof/Machine/Units.lean ====
section
/-!
DEFINITION. The four function units SIN, TANH, EXP and EXP2 (00_scope R17). The datapath takes them as an argument, so that it can be
run with any choice of them; the machine's own are `units`, which have the properties of R17 and are otherwise free (log 1, log 2).
-/

namespace Sys2Proof.Machine

/-- A choice of the configuration functions (R17). -/
structure MathUnits where
  sin  : F → F
  tanh : F → F
  exp  : F → F
  exp2 : F → F

/-- The integer an F value is, where it is an integer in [−11, 11] (R17, the range on which EXP2 is exact). -/
def smallInt (x : F) : Option Int :=
  if isFinite x && decide (fUnits x % 2 ^ 149 = 0) && decide (-11 ≤ fUnits x / 2 ^ 149) && decide (fUnits x / 2 ^ 149 ≤ 11) then
    some (fUnits x / 2 ^ 149)
  else none

/-- 2^k for k in [−11, 11], exact. -/
def powerOfTwo (k : Int) : F := BitVec.ofInt 32 ((k + 127) * 2 ^ 23)

/-- SIN with its properties: SIN(+0.0) is +0.0, and SIN(x) lies in [−1, 1] for finite x. -/
def conformSin (f : F → F) (x : F) : F :=
  if x = fZero then fZero
  else if isFinite x && !(fle (fneg fOne) (f x) && fle (f x) fOne) then fZero
  else f x

/-- TANH of a positive argument with its property: a value above 0. -/
def conformTanhPos (f : F → F) (x : F) : F :=
  if fgt (f x) fZero then f x else fOne

/-- TANH with its properties: TANH(+0.0) is +0.0, TANH(x) > 0 for x > 0, and TANH is odd. -/
def conformTanh (f : F → F) (x : F) : F :=
  if isNaN x then f x
  else if fMag x = 0 then x
  else if fSign x then fneg (conformTanhPos f (fneg x))
  else conformTanhPos f x

/-- EXP with its properties: EXP(0.0) is 1.0, and EXP(x) lies in [+0.0, +inf] for every non-NaN x. -/
def conformExp (f : F → F) (x : F) : F :=
  if x = fZero then fOne
  else if !isNaN x && !fle fZero (f x) then fZero
  else f x

/-- EXP2 with its property: exact on every integer in [−11, 11]. -/
def conformExp2 (f : F → F) (x : F) : F :=
  match smallInt x with
  | some k => powerOfTwo k
  | none   => f x

/-- The given functions, changed only where they lack a property of R17: functions that have them all are not changed. -/
def MathUnits.conform (u : MathUnits) : MathUnits :=
  { sin := conformSin u.sin, tanh := conformTanh u.tanh, exp := conformExp u.exp, exp2 := conformExp2 u.exp2 }

/-- The properties of R17, the only ones the model gives the configuration functions. Log 2 says how `==` is read at zero. -/
structure MathUnits.Conforming (u : MathUnits) : Prop where
  sin_zero   : u.sin fZero = fZero
  sin_range  : ∀ x, isFinite x = true → fle (fneg fOne) (u.sin x) = true ∧ fle (u.sin x) fOne = true
  tanh_zero  : u.tanh fZero = fZero
  tanh_odd   : ∀ x, isNaN x = false → u.tanh (fneg x) = fneg (u.tanh x)
  tanh_pos   : ∀ x, fgt x fZero = true → fgt (u.tanh x) fZero = true
  exp_range  : ∀ x, isNaN x = false → fle fZero (u.exp x) = true
  exp_zero   : u.exp fZero = fOne
  exp2_exact : ∀ x k, smallInt x = some k → u.exp2 x = powerOfTwo k

/-- The machine's function units: free but for the properties of R17. Log 1. -/
def units : MathUnits :=
  MathUnits.conform { sin := Config.rawSin, tanh := Config.rawTanh, exp := Config.rawExp, exp2 := Config.rawExp2 }

end Sys2Proof.Machine
end

