-- ==== Sys2Proof/Machine/Voice.lean ====
section
/-!
DEFINITION. PREPARE, NOTE_ON, NOTE_OFF and ALL_SOUND_OFF (42_voice_control).
-/

namespace Sys2Proof.Machine

/-- `PREPARE` (R170): a count other than 1 and 2 faults and changes nothing else; otherwise the rate is stored as delivered, valid or
not, and the voice and the envelope are reset. -/
def execPrepare (nchf srw : Word) (s : State) : Host.Outcome State Fault Refusal :=
  match channelsOfCount nchf with
  | none   => .next (raiseFault .badChannelCount s)
  | some c =>
    .next (answerNone
      { s with
        sr := w2f srw
        nch := c
        voice := { phase := fZero, phaseDelta := fZero, curFreq := fZero, tgtFreq := fZero, glideRem := 0#32
                   toneZ0 := fZero, toneZ1 := fZero }
        env := envReset s.env })

/-- `NOTE_FREQ(n)` (R171): 440 · 2^((n − 69)/12). -/
def noteFreq (u : MathUnits) (n : Word) : F :=
  fmul fA4 (u.exp2 (fdiv (i2f ((n.toNat : Int) - 69)) fTwelve))

/-- The target frequency of a note under a pitch offset (R172). -/
def noteTarget (u : MathUnits) (pitch : F) (n : Word) : F :=
  fmul (noteFreq u n) (u.exp2 (fdiv pitch fTwelve))

/-- `GLIDE_LEN(g)` (R173). -/
def glideLen (g sr : F) : Word := roundSatU32 (fmul (clampf g fZero fTen) sr)

/-- The phase increment of a frequency, `(TWO_PI *f f) /f SR` (10_state R39). -/
def deltaOf (freq sr : F) : F := fdiv (fmul twoPi freq) sr

/-- `SNAP(tgt)` (R174). -/
def snap (sr tgt : F) (v : Voice) : Voice :=
  { v with curFreq := tgt, glideRem := 0#32, phaseDelta := deltaOf tgt sr }

/-- The count a NOTE_ON starts a glide with (R172): 0 where it snaps. -/
def noteGlide (p : Params) (sr : F) (v : Voice) : Word :=
  if fgt p.glideTime fZero && fgt v.curFreq fZero then glideLen p.glideTime sr else 0#32

/-- What a NOTE_ON does to the voice registers (R172): the new target, then a glide or a snap. -/
def voiceNoteOn (p : Params) (sr tgt : F) (v : Voice) : Voice :=
  let r := noteGlide p sr v
  let v1 := { v with tgtFreq := tgt }
  if 0#32 < r then { v1 with glideRem := r } else snap sr tgt v1

/-- `NOTE_ON(n)` with the given function units (R172); nothing while disabled (R177). -/
def noteOnWith (u : MathUnits) (n : Word) (s : State) : State :=
  if srValid s then
    answerNone
      { s with
        voice := voiceNoteOn s.psnap s.sr (noteTarget u s.psnap.pitchSemitones n) s.voice
        env := envNoteOn s.env }
  else answerNone s

/-- `NOTE_ON` (R172). -/
def execNoteOn (note : Word) (s : State) : Host.Outcome State Fault Refusal :=
  .next (noteOnWith units note s)

/-- `NOTE_OFF` (R175): releases the voice whichever note sounds; nothing while disabled (R177). -/
def execNoteOff (_note : Word) (s : State) : Host.Outcome State Fault Refusal :=
  .next (if srValid s then answerNone { s with env := envNoteOff s.env } else answerNone s)

/-- `ALL_SOUND_OFF` (R176): resets the envelope and keeps every voice register; nothing while disabled (R177). -/
def execAllSoundOff (s : State) : Host.Outcome State Fault Refusal :=
  .next (if srValid s then answerNone { s with env := envReset s.env } else answerNone s)

end Sys2Proof.Machine
end

