-- ==== Sys2Proof/Machine/Render.lean ====
section
/-!
DEFINITION. TICK, the per-sample render step (43_render_tick): the datapath's units, then the command.
-/

namespace Sys2Proof.Machine

/-- `GLIDE_STEP`, step 1 (R191). The divisor is the count before the decrement. -/
def glideStep (sr : F) (v : Voice) : Voice :=
  if 0#32 < v.glideRem then
    let f := fadd v.curFreq (fdiv (fsub v.tgtFreq v.curFreq) (u2f v.glideRem))
    { v with curFreq := f, glideRem := v.glideRem - 1#32, phaseDelta := deltaOf f sr }
  else v

/-- The raw sample, step 3 (R193). -/
def rawSample (u : MathUnits) (phase env : F) : F := fmul (u.sin phase) env

/-- `DRIVE(s)`, step 4 (R194): the identity for a drive of 0. -/
def driveStage (u : MathUnits) (drive s : F) : F :=
  if fgt drive fZero then
    let k := fmul drive fKMax
    fdiv (u.tanh (fmul k s)) (u.tanh k)
  else s

/-- `COLOR(s)`, step 5 (R195), with `z` the filter memory of channel 0 as the previous TICK left it. -/
def colorStage (color z s : F) : F :=
  let high := fsub s z
  fsub (fadd s (fmul (fmul high color) fHalf)) (fmul (fmul s (fneg color)) fHalf)

/-- `PHASE_ADVANCE`, step 6 (R196): at most one subtraction of 2π. -/
def phaseAdvance (phase delta : F) : F :=
  let p := fadd phase delta
  if fge p twoPi then fsub p twoPi else p

/-- `ALPHA()`, step 7 (R197). -/
def alphaOf (u : MathUnits) (tone sr : F) : F :=
  clampf (u.exp (fdiv (fmul negTwoPi tone) sr)) fZero fOne

/-- `TONE_FILTER`, step 7 (R198): the new memory of one channel. -/
def toneFilter (alpha z s : F) : F := fadd (fmul alpha z) (fmul (fsub fOne alpha) s)

/-- The colored sample of a TICK (steps 3 to 5), from the phase and the filter memory before this TICK's updates and the envelope
level of this TICK. -/
def coloredSample (u : MathUnits) (p : Params) (v : Voice) (env : F) : F :=
  colorStage p.color v.toneZ0 (driveStage u p.drive (rawSample u v.phase env))

/-- The voice registers after a TICK (R190): glide step, phase advance, and the tone filter of every channel below NCH on the same
colored sample; in mono TONE_Z[1] is not touched (R198). -/
def voiceTick (u : MathUnits) (p : Params) (sr : F) (nch : Channels) (env : F) (v : Voice) : Voice :=
  let v1 := glideStep sr v
  let s := coloredSample u p v1 env
  let alpha := alphaOf u p.toneCutoff sr
  { v1 with
    phase := phaseAdvance v1.phase v1.phaseDelta
    toneZ0 := toneFilter alpha v1.toneZ0 s
    toneZ1 := match nch with
      | .mono   => v1.toneZ1
      | .stereo => toneFilter alpha v1.toneZ1 s }

/-- `OUTPUT()`, step 7 (R199): in mono `out1` is +0.0. -/
def outputFrame (gain : F) (nch : Channels) (v : Voice) : Frame :=
  { out0 := fmul v.toneZ0 gain
    out1 := match nch with
      | .mono   => fZero
      | .stereo => fmul v.toneZ1 gain }

/-- `TICK` with the given function units (R190): while disabled, a silent frame and no register change. -/
def tickWith (u : MathUnits) (s : State) : State :=
  if srValid s then
    let env := envNextSample s.psnap s.sr s.env
    let voice := voiceTick u s.psnap s.sr s.nch env.level s.voice
    answer (frameResponse (outputFrame s.psnap.gain s.nch voice)) { s with env := env, voice := voice }
  else answer (frameResponse { out0 := fZero, out1 := fZero }) s

/-- `TICK` (R190). -/
def execTick (s : State) : Host.Outcome State Fault Refusal :=
  .next (tickWith units s)

end Sys2Proof.Machine
end

