-- ==== Sys2Proof/Machine/Dispatch.lean ====
section
/-!
DEFINITION. One arm per command of the opcode table (30_encoding R98).
-/

namespace Sys2Proof.Machine

def exec (i : Instr) (s : State) : Host.Outcome State Fault Refusal :=
  match i with
  | .nop => Sys2Proof.Machine.execNop s
  | .prepare nchf srw => Sys2Proof.Machine.execPrepare nchf srw s
  | .beginBlock => Sys2Proof.Machine.execBeginBlock s
  | .noteOn note => Sys2Proof.Machine.execNoteOn note s
  | .noteOff note => Sys2Proof.Machine.execNoteOff note s
  | .allSoundOff => Sys2Proof.Machine.execAllSoundOff s
  | .tick => Sys2Proof.Machine.execTick s
  | .writeParam idx valw => Sys2Proof.Machine.execWriteParam idx valw s
  | .readReg addr => Sys2Proof.Machine.execReadReg addr s

end Sys2Proof.Machine
end

