-- ==== Sys2Proof/Machine/Step.lean ====
section
/-!
DEFINITION. One step: take the next transaction, decode it and execute it, or record the fault its words raise (20_memory R76,
30_encoding R98). While no command has arrived the block does nothing (60_exceptions R244).
-/

namespace Sys2Proof.Machine

/-- `decode_and_execute` (R98) of the next transaction. -/
def step (s : State) : Host.Outcome State Fault Refusal :=
  match takeTransaction s with
  | none        => .next s
  | some (t, s') =>
    match decode t with
    | .ok i    => exec i s'
    | .error c => .next (raiseFault c s')

/-- The state with the instruction whose bits are `w` as the next transaction of the command port: first in the AUDIO agent's queue,
with no transaction of the CONTROL agent pending, so that no arbitration stands before it. Log 7. -/
def State.withFetchWord (s : State) (nbits w : Nat) : State :=
  { s with audio := tableTransaction nbits w :: s.audio, control := [] }

end Sys2Proof.Machine
end

