-- ==== Sys2Proof/Safety.lean ====
section
/-!
DEFINITION. What counts as a safe run, and the invariants of 10_state R50 and the rules beside it, in the terms claims use.
-/

namespace Sys2Proof.Machine

/-- A parameter's value lies in its range and is not a NaN (10_state R33, R50(a)). -/
def inRange (p : Param) (v : F) : Prop := fle (paramLo p) v = true ∧ fle v (paramHi p) = true

/-- Every value of a parameter set lies in its range (R50(a)). -/
def ParamsInRange (ps : Params) : Prop := ∀ p, inRange p (getParam ps p)

/-- A level in [0, 1], not a NaN (R50(b)). -/
def inUnit (x : F) : Prop := fle fZero x = true ∧ fle x fOne = true

/-- The envelope's bounds (R50(b), (c), (d)). -/
def EnvOk (e : Env) : Prop :=
  inUnit e.level ∧ inUnit e.relStart ∧ (e.stage = .idle → e.level = fZero)

/-- The envelope's and the parameters' invariant (R50(a) to (d)). -/
def EngineOk (s : State) : Prop :=
  ParamsInRange s.pcell ∧ ParamsInRange s.psnap ∧ EnvOk s.env

/-- The fault record: no cause while FAULT is 0, one of the four causes once it is 1 (10_state R47, 60_exceptions R231). -/
def FaultRecordOk (s : State) : Prop :=
  (s.fault = false → s.faultCause = 0#4) ∧ (s.fault = true → ∃ c, s.faultCause = causeCode c)

/-- The channels' filter memories: equal in stereo (43_render R201), channel 1 at +0.0 in mono (70_reset R269). -/
def ChannelsOk (s : State) : Prop :=
  match s.nch with
  | .mono   => s.voice.toneZ1 = fZero
  | .stereo => s.voice.toneZ1 = s.voice.toneZ0

/-- While disabled every voice and envelope register is at its PREPARE value; in particular PHASE_DELTA is 0 (42_voice R177). -/
def SilentWhileDisabled (s : State) : Prop :=
  srValid s = false → s.voice = Voice.zero ∧ s.env = Env.zero

/-- A phase in [+0.0, TWO_PI) (10_state R50(e), 43_render R202). -/
def inTurn (x : F) : Prop := fle fZero x = true ∧ flt x twoPi = true

/-- The command word's row of the opcode table: the match word (30_encoding R94). -/
def rowMatch : Opcode → Word
  | .nop         => 0x00000000#32
  | .prepare     => 0x10000000#32
  | .beginBlock  => 0x20000000#32
  | .noteOn      => 0x30000000#32
  | .noteOff     => 0x40000000#32
  | .allSoundOff => 0x50000000#32
  | .tick        => 0x60000000#32
  | .writeParam  => 0x70000000#32
  | .readReg     => 0x80000000#32

/-- The command word's row of the opcode table: the mask word (30_encoding R94). -/
def rowMask : Opcode → Word
  | .nop         => 0xFFFFFFFF#32
  | .prepare     => 0xFFFFFFFC#32
  | .beginBlock  => 0xFFFFFFFF#32
  | .noteOn      => 0xFFFFFF80#32
  | .noteOff     => 0xFFFFFF80#32
  | .allSoundOff => 0xFFFFFFFF#32
  | .tick        => 0xFFFFFFFF#32
  | .writeParam  => 0xFFFFFFF0#32
  | .readReg     => 0xFFFFFF00#32

/-- The state after executing a list of commands one after another (20_memory R76); `none` where one does not complete. -/
def runInstrs : List Instr → State → Option State
  | [], s      => some s
  | i :: is, s =>
    match exec i s with
    | .next t    => runInstrs is t
    | .fault _   => none
    | .refused _ => none

end Sys2Proof.Machine
end

