-- ==== Sys2Proof/Certificates/Slice0/Obligations.lean ====
section
/-!
DEFINITION. The statements for the provers, from the numbered rules of the spec. The rule each one formalises stands before it.
-/

open Sys2Proof Sys2Proof.Machine

/-! ### Encoding (30_encoding, 20_memory R73) -/

/-- R90–R94, R98: a well-formed instruction's words decode to it, every operand at every value its field admits. -/
def Obligations.DecodeOfEncodeIsTheInstruction : Prop :=
  ∀ i : Instr, i.wellFormed = true → decode (encode i) = .ok i

/-- R92, R93, R97: a transaction that decodes does so to a well-formed instruction whose words it carries; the data word is kept
where the command uses it. -/
def Obligations.DecodedInstructionKeepsTheWords : Prop :=
  ∀ (t : Transaction) (i : Instr), decode t = .ok i →
    i.wellFormed = true ∧ (encode i).cmd = t.cmd ∧
      ((i.opcode = .prepare ∨ i.opcode = .writeParam) → (encode i).data = t.data)

/-- R94: a command word decodes to a row's command exactly when its bits under the row's mask are the row's match word, and no two
rows of the opcode map overlap. -/
def Obligations.CommandWordEncodesExactlyItsRow : Prop :=
  (∀ (t : Transaction) (o : Opcode), t.cmd &&& rowMask o = rowMatch o ↔ ∃ i, decode t = .ok i ∧ i.opcode = o) ∧
    (∀ (w : Word) (o o' : Opcode), w &&& rowMask o = rowMatch o → w &&& rowMask o' = rowMatch o' → o = o')

/-- R95: a command word whose opcode is 0x9 or more records ILLEGAL_OPCODE whatever its other bits, and does nothing else. -/
def Obligations.ReservedOpcodeRecordsIllegalOpcode : Prop :=
  ∀ (s s' : State) (t : Transaction), takeTransaction s = some (t, s') → 0x9#4 ≤ t.cmd.extractLsb' 28 4 →
    step s = .next
      { s' with
        fault := true
        faultCause := if s'.fault then s'.faultCause else 1#4
        rsp := some { rdata := 0#32, frame := none } }

/-- R96: a command word whose opcode is one of the nine in use and which has a 1 in a must-be-zero bit records MBZ_NONZERO, and does
nothing else. A must-be-zero bit is a bit of the row's mask below the opcode. -/
def Obligations.MbzBitRecordsMbzNonzero : Prop :=
  ∀ (s s' : State) (t : Transaction) (o : Opcode), takeTransaction s = some (t, s') →
    t.cmd.extractLsb' 28 4 = (rowMatch o).extractLsb' 28 4 → t.cmd &&& rowMask o &&& 0x0FFFFFFF#32 ≠ 0#32 →
    step s = .next
      { s' with
        fault := true
        faultCause := if s'.fault then s'.faultCause else 2#4
        rsp := some { rdata := 0#32, frame := none } }

/-- R97: the data word of a command of format FN, FK or FR is not checked and has no effect. -/
def Obligations.UnusedDataWordHasNoEffect : Prop :=
  ∀ c d d' : Word, c.extractLsb' 28 4 ≠ 0x1#4 → c.extractLsb' 28 4 ≠ 0x7#4 → decode ⟨c, d⟩ = decode ⟨c, d'⟩

/-- R73: a transaction sent as bytes, each word least significant byte first and the command word before the data word, is read back
as it was, with the rest of the stream left. -/
def Obligations.ByteStreamCarriesTheTransaction : Prop :=
  ∀ (t : Transaction) (rest : List Byte),
    (bytesOfTransaction t).length = 8 ∧ transactionOfBytes (bytesOfTransaction t ++ rest) = some (t, rest)

/-- R103 and the table of R94: words written out from the encodings decode to the commands they stand for. -/
def Obligations.ExampleWordsDecode : Prop :=
  decode ⟨0x30000045#32, 0#32⟩ = .ok (.noteOn 69#32) ∧
  decode ⟨0x10000002#32, 0x472C4400#32⟩ = .ok (.prepare 2#32 0x472C4400#32) ∧
  decode ⟨0x70000009#32, 0x44020000#32⟩ = .ok (.writeParam 9#32 0x44020000#32) ∧
  decode ⟨0x80000022#32, 0#32⟩ = .ok (.readReg 0x22#32) ∧
  decode ⟨0x60000000#32, 0#32⟩ = .ok .tick ∧
  decode ⟨0x20000000#32, 0#32⟩ = .ok .beginBlock ∧
  decode ⟨0x40000045#32, 0#32⟩ = .ok (.noteOff 69#32) ∧
  decode ⟨0x50000000#32, 0#32⟩ = .ok .allSoundOff ∧
  decode ⟨0x00000000#32, 0xFFFFFFFF#32⟩ = .ok .nop

/-- R102, R120, R121: LOAD_PRESET of ten numbers leaves every cell at its conditioned value and changes nothing else but the
response. -/
def Obligations.LoadPresetConditionsEveryCell : Prop :=
  ∀ (values : Params) (s : State), (∀ p, isNaN (getParam values p) = false) →
    ∃ t, runInstrs (Pseudo.loadPreset values).expand s = some t ∧
      (∀ p, getParam t.pcell p = condValue p (getParam values p)) ∧
      t = { s with pcell := t.pcell, rsp := some { rdata := 0#32, frame := none } }

/-! ### Steps (20_memory R76, R77; 60_exceptions R244) -/

/-- R76, R98: a step takes the next transaction of the merged sequence and, where it decodes, is the execution of the decoded
instruction on the state with the transaction taken. -/
def Obligations.StepRunsTheDecodedInstruction : Prop :=
  ∀ (s s' : State) (t : Transaction) (i : Instr), takeTransaction s = some (t, s') → decode t = .ok i → step s = exec i s'

/-- R244: while no command arrives the block does nothing and keeps all state. -/
def Obligations.StepKeepsAllStateWhileNoCommandArrives : Prop :=
  ∀ s : State, s.audio = [] → s.control = [] → step s = .next s

/-- R77: the arbiter takes one agent's first transaction and leaves the other agent's alone, so that each agent's commands keep
their own order; and it changes no register. The two queues and the count of choices are the model's (log 6, log 7). -/
def Obligations.ArbiterKeepsEachAgentsOrder : Prop :=
  ∀ s : State, ¬(s.audio = [] ∧ s.control = []) →
    ∃ t s', takeTransaction s = some (t, s') ∧
      (s.audio = t :: s'.audio ∧ s'.control = s.control ∨ s.control = t :: s'.control ∧ s'.audio = s.audio) ∧
      s' = { s with audio := s'.audio, control := s'.control, arbTurn := s'.arbTurn }

/-- R234, R98: a recorded fault does not stop the block, and every transaction has a meaning: each step answers a next state. -/
def Obligations.EveryStepAnswersANextState : Prop :=
  ∀ s : State, ∃ t, step s = .next t

/-! ### Faults (60_exceptions) -/

/-- R234, R236: the fault record is sticky; no step clears it or changes its cause. -/
def Obligations.FaultRecordIsSticky : Prop :=
  ∀ s t : State, step s = .next t → s.fault = true → t.fault = true ∧ t.faultCause = s.faultCause

/-- R47, R231: FAULT_CAUSE is 0 while FAULT is 0 and one of the four cause codes once it is 1; every step keeps this. -/
def Obligations.StepKeepsTheFaultRecordLegal : Prop :=
  ∀ s t : State, FaultRecordOk s → step s = .next t → FaultRecordOk t

/-- R170, R231, R234: PREPARE with a channel count other than 1 and 2 records BAD_CHANNEL_COUNT and changes nothing else. -/
def Obligations.BadChannelCountChangesOnlyTheRecord : Prop :=
  ∀ (nchf srw : Word) (s : State), nchf ≠ 1#32 → nchf ≠ 2#32 →
    exec (.prepare nchf srw) s = .next
      { s with
        fault := true
        faultCause := if s.fault then s.faultCause else 3#4
        rsp := some { rdata := 0#32, frame := none } }

/-- R72, R234: READ_REG of an address the register map does not list records BAD_REG_ADDRESS, returns 0 and changes nothing else. -/
def Obligations.UnmappedAddressRecordsBadRegAddress : Prop :=
  ∀ (a : Word) (s : State),
    (0x0A#32 ≤ a ∧ a ≤ 0x0F#32) ∨ (0x1A#32 ≤ a ∧ a ≤ 0x1F#32) ∨ (0x23#32 ≤ a ∧ a ≤ 0x2F#32) ∨ (0x37#32 ≤ a ∧ a ≤ 0x3F#32) ∨
      (0x43#32 ≤ a ∧ a ≤ 0xFF#32) →
    exec (.readReg a) s = .next
      { s with
        fault := true
        faultCause := if s.fault then s.faultCause else 4#4
        rsp := some { rdata := 0#32, frame := none } }

/-! ### Reset (10_state R52, 70_reset R260) -/

/-- R52, R260: the power-on value of every register. -/
def Obligations.ResetLeavesThePowerOnValues : Prop :=
  (State.reset.pcell.toList = [0x3E800000#32, 0x3BA3D70A#32, 0x3D4CCCCD#32, 0x3F4CCCCD#32, 0x3E19999A#32, 0#32, 0#32,
      0x3DCCCCCD#32, 0#32, 0x43960000#32]) ∧
  State.reset.psnap = State.reset.pcell ∧ State.reset.sr = 0#32 ∧ channelCount State.reset.nch = 2#32 ∧
  State.reset.voice.phase = 0#32 ∧ State.reset.voice.phaseDelta = 0#32 ∧ State.reset.voice.curFreq = 0#32 ∧
  State.reset.voice.tgtFreq = 0#32 ∧ State.reset.voice.glideRem = 0#32 ∧ State.reset.voice.toneZ0 = 0#32 ∧
  State.reset.voice.toneZ1 = 0#32 ∧ stageCode State.reset.env.stage = 0#3 ∧ State.reset.env.level = 0#32 ∧
  State.reset.env.relStart = 0#32 ∧ State.reset.fault = false ∧ State.reset.faultCause = 0#4

/-- R50, R47, R201, R177 at power-on: reset meets every invariant stated here. -/
def Obligations.ResetMeetsTheInvariants : Prop :=
  EngineOk State.reset ∧ FaultRecordOk State.reset ∧ ChannelsOk State.reset ∧ SilentWhileDisabled State.reset ∧
    inTurn State.reset.voice.phase

/-! ### READ_REG and NOP (44_access) -/

/-- R221: the all-zero command word is NOP whatever its data word, and NOP changes no register, records no fault and returns 0 and no
frame. -/
def Obligations.NopChangesNoRegister : Prop :=
  ∀ (s : State) (data : Word), decode ⟨0x00000000#32, data⟩ = .ok .nop ∧
    exec .nop s = .next { s with rsp := some { rdata := 0#32, frame := none } }

/-- R71, R220: READ_REG of each mapped address returns the register there and changes no register. -/
def Obligations.ReadRegReturnsTheMappedRegister : Prop :=
  ∀ (s : State) (e : Word × Word),
    e ∈ [(0x00#32, s.pcell.gain), (0x01#32, s.pcell.attack), (0x02#32, s.pcell.decay), (0x03#32, s.pcell.sustain),
      (0x04#32, s.pcell.release), (0x05#32, s.pcell.pitchSemitones), (0x06#32, s.pcell.glideTime), (0x07#32, s.pcell.drive),
      (0x08#32, s.pcell.color), (0x09#32, s.pcell.toneCutoff)] ++
      [(0x10#32, s.psnap.gain), (0x11#32, s.psnap.attack), (0x12#32, s.psnap.decay), (0x13#32, s.psnap.sustain),
      (0x14#32, s.psnap.release), (0x15#32, s.psnap.pitchSemitones), (0x16#32, s.psnap.glideTime), (0x17#32, s.psnap.drive),
      (0x18#32, s.psnap.color), (0x19#32, s.psnap.toneCutoff)] ++
      [(0x20#32, s.sr), (0x21#32, if s.nch = .mono then 1#32 else 2#32), (0x22#32, statusWord s), (0x30#32, s.voice.phase),
      (0x31#32, s.voice.phaseDelta), (0x32#32, s.voice.curFreq), (0x33#32, s.voice.tgtFreq), (0x34#32, s.voice.glideRem),
      (0x35#32, s.voice.toneZ0), (0x36#32, s.voice.toneZ1)] ++
      [(0x40#32, match s.env.stage with | .idle => 0#32 | .attack => 1#32 | .decay => 2#32 | .sustain => 3#32 | .release => 4#32),
      (0x41#32, s.env.level), (0x42#32, s.env.relStart)] →
    exec (.readReg e.1) s = .next { s with rsp := some { rdata := e.2, frame := none } }

/-- R47: the bits of STATUS. -/
def Obligations.StatusShowsItsFields : Prop :=
  ∀ s : State,
    (statusWord s).getLsbD 0 = (isFinite s.sr && fge s.sr fOne) ∧ (statusWord s).getLsbD 1 = s.fault ∧
    (statusWord s).extractLsb' 2 2 = 0#2 ∧ (statusWord s).extractLsb' 4 4 = s.faultCause ∧
    (statusWord s).extractLsb' 8 24 = 0#24

/-- R75: a second READ_REG of the same address with no command between finds and leaves the state the first one left. -/
def Obligations.ReadRegIsIdempotent : Prop :=
  ∀ (a : Word) (s : State), ∃ t, exec (.readReg a) s = .next t ∧ exec (.readReg a) t = .next t

/-! ### Parameters (40_parameters) -/

/-- R120, R121: WRITE_PARAM of a number to index 0–9 stores it conditioned (below the range the lower bound, above it the upper bound,
−0.0 as +0.0, otherwise unchanged) and changes no other cell and no other register. -/
def Obligations.WriteParamStoresTheConditionedValue : Prop :=
  ∀ (i v : Word) (p : Param) (s : State), paramOfIndex i = some p → isNaN v = false →
    ∃ t, exec (.writeParam i v) s = .next t ∧
      getParam t.pcell p =
        (if flt v (paramLo p) then paramLo p else if flt (paramHi p) v then paramHi p
         else if v = 0x80000000#32 then 0x00000000#32 else v) ∧
      (∀ q, q ≠ p → getParam t.pcell q = getParam s.pcell q) ∧
      t = { s with pcell := t.pcell, rsp := some { rdata := 0#32, frame := none } }

/-- R122, and the NaN lines of R120 and R121: WRITE_PARAM with an index of 10 to 15, or with a NaN, changes no register and records no fault. -/
def Obligations.WriteParamOutsideTheSetDoesNothing : Prop :=
  ∀ (i v : Word) (s : State), 10 ≤ i.toNat ∨ isNaN v = true →
    exec (.writeParam i v) s = .next { s with rsp := some { rdata := 0#32, frame := none } }

/-- R123: BEGIN_BLOCK copies all ten cells into the snapshot in one step and changes no other register. -/
def Obligations.BeginBlockCopiesEveryCell : Prop :=
  ∀ s : State, ∃ t, exec .beginBlock s = .next t ∧ (∀ p, getParam t.psnap p = getParam s.pcell p) ∧
    t = { s with psnap := t.psnap, rsp := some { rdata := 0#32, frame := none } }

/-- R124, R125: no command but BEGIN_BLOCK, READ_REG and WRITE_PARAM depends on the cells: with other cells it does the same. -/
def Obligations.DatapathReadsOnlyTheSnapshot : Prop :=
  ∀ (i : Instr) (s t : State) (cells : Params), i.opcode ≠ .beginBlock → i.opcode ≠ .readReg → i.opcode ≠ .writeParam →
    exec i s = .next t → exec i { s with pcell := cells } = .next { t with pcell := cells }

/-- R50(a) to (d): every step keeps the parameters in their ranges, the envelope level and release start in [0, 1], and the level at
+0.0 in IDLE. -/
def Obligations.StepKeepsTheEngineInBounds : Prop :=
  ∀ s t : State, EngineOk s → step s = .next t → EngineOk t

/-! ### Voice commands (42_voice_control) -/

/-- R170: PREPARE with channel count 1 or 2 stores rate and count, resets every voice and envelope register, and keeps the cells, the
snapshot and the fault record. -/
def Obligations.PrepareStoresTheRateAndResetsTheVoice : Prop :=
  ∀ (nchf srw : Word) (s : State), nchf = 1#32 ∨ nchf = 2#32 →
    exec (.prepare nchf srw) s = .next
      { s with
        sr := srw
        nch := if nchf = 1#32 then .mono else .stereo
        voice := { phase := 0#32, phaseDelta := 0#32, curFreq := 0#32, tgtFreq := 0#32, glideRem := 0#32, toneZ0 := 0#32, toneZ1 := 0#32 }
        env := { stage := .idle, level := 0#32, relStart := 0#32 }
        rsp := some { rdata := 0#32, frame := none } }

/-- R171–R174, R143: NOTE_ON with a valid rate sets the target frequency, then glides or snaps, and puts the envelope in ATTACK; it
keeps PHASE, the filter memories, the envelope level and the release start. -/
def Obligations.NoteOnSetsTheTargetAndGlidesOrSnaps : Prop :=
  ∀ (n : Word) (s : State), srValid s = true →
    let p := s.psnap
    let tgt := fmul (fmul 0x43DC0000#32 (units.exp2 (fdiv (i2f ((n.toNat : Int) - 69)) 0x41400000#32)))
      (units.exp2 (fdiv p.pitchSemitones 0x41400000#32))
    let r := if fgt p.glideTime 0#32 && fgt s.voice.curFreq 0#32 then
      roundSatU32 (fmul (clampf p.glideTime 0#32 0x41200000#32) s.sr) else 0#32
    exec (.noteOn n) s = .next
      { s with
        voice :=
          if r = 0#32 then
            { s.voice with tgtFreq := tgt, curFreq := tgt, glideRem := 0#32, phaseDelta := fdiv (fmul 0x40C90FDB#32 tgt) s.sr }
          else { s.voice with tgtFreq := tgt, glideRem := r }
        env := { s.env with stage := .attack }
        rsp := some { rdata := 0#32, frame := none } }

/-- R267: the first note after a PREPARE with a valid rate snaps, whatever the glide time. -/
def Obligations.FirstNoteAfterPrepareSnaps : Prop :=
  ∀ (nchf srw n : Word) (s : State), nchf = 1#32 ∨ nchf = 2#32 → rateValid srw = true →
    ∃ t, runInstrs [.prepare nchf srw, .noteOn n] s = some t ∧
      t.voice.curFreq = t.voice.tgtFreq ∧ t.voice.glideRem = 0#32 ∧ t.env.stage = .attack

/-- R175, R144, R178: NOTE_OFF with a valid rate puts the envelope in RELEASE from ATTACK, DECAY and SUSTAIN, the release starting at
the current level, does nothing in IDLE and RELEASE, and changes no other register, whichever note it names. -/
def Obligations.NoteOffReleasesTheVoice : Prop :=
  ∀ (n : Word) (s : State), srValid s = true →
    exec (.noteOff n) s = .next
      { s with
        env := if s.env.stage = .idle ∨ s.env.stage = .release then s.env
          else { stage := .release, level := s.env.level, relStart := s.env.level }
        rsp := some { rdata := 0#32, frame := none } }

/-- R176, R145: ALL_SOUND_OFF with a valid rate resets the envelope and changes no voice register. -/
def Obligations.AllSoundOffResetsOnlyTheEnvelope : Prop :=
  ∀ s : State, srValid s = true →
    exec .allSoundOff s = .next
      { s with
        env := { stage := .idle, level := 0#32, relStart := 0#32 }
        rsp := some { rdata := 0#32, frame := none } }

/-- R36, R177, R190: while the block is disabled, NOTE_ON, NOTE_OFF and ALL_SOUND_OFF change no register, and TICK changes no register
and returns a frame of two +0.0 samples. -/
def Obligations.DisabledBlockStaysSilent : Prop :=
  ∀ (n : Word) (s : State), (isFinite s.sr && fge s.sr fOne) = false →
    exec (.noteOn n) s = .next { s with rsp := some { rdata := 0#32, frame := none } } ∧
    exec (.noteOff n) s = .next { s with rsp := some { rdata := 0#32, frame := none } } ∧
    exec .allSoundOff s = .next { s with rsp := some { rdata := 0#32, frame := none } } ∧
    exec .tick s = .next { s with rsp := some { rdata := 0#32, frame := some { out0 := 0#32, out1 := 0#32 } } }

/-- R177, R263: while the rate is not valid every voice and envelope register, PHASE_DELTA among them, stands at its PREPARE value;
every step keeps this. -/
def Obligations.StepKeepsTheDisabledVoiceAtRest : Prop :=
  ∀ s t : State, SilentWhileDisabled s → step s = .next t → SilentWhileDisabled t

/-- R16, R173: the count a glide length is rounded to is the nearest integer, a tie going up, and saturates at 2^32 − 1. -/
def Obligations.GlideLengthIsRoundedHalfAway : Prop :=
  ∀ x : F, isFinite x = true → fSign x = false →
    (2 * ((roundSatU32 x).toNat : Int) - 1) * 2 ^ 149 ≤ 2 * fUnits x ∧
      ((roundSatU32 x).toNat < 2 ^ 32 - 1 → 2 * fUnits x < (2 * ((roundSatU32 x).toNat : Int) + 1) * 2 ^ 149)

/-! ### The envelope step of TICK (41_envelope) -/

/-- R148, R151: in IDLE a TICK leaves the level at +0.0, in SUSTAIN at P_sustain; the stage stays. -/
def Obligations.IdleAndSustainStepsHold : Prop :=
  ∀ s : State, srValid s = true →
    (s.env.stage = .idle → ∃ t, exec .tick s = .next t ∧ t.env = { s.env with level := 0#32 }) ∧
    (s.env.stage = .sustain → ∃ t, exec .tick s = .next t ∧ t.env = { s.env with level := s.psnap.sustain })

/-- R149: the ATTACK step of a TICK. -/
def Obligations.AttackStepRises : Prop :=
  ∀ s : State, srValid s = true → s.env.stage = .attack →
    let den := fmul s.psnap.attack s.sr
    let l := fadd s.env.level (fdiv 0x3F800000#32 den)
    ∃ t, exec .tick s = .next t ∧
      t.env = if feq den 0#32 || fge l 0x3F800000#32 then { s.env with level := 0x3F800000#32, stage := .decay }
        else { s.env with level := l }

/-- R150: the DECAY step of a TICK. -/
def Obligations.DecayStepFallsToSustain : Prop :=
  ∀ s : State, srValid s = true → s.env.stage = .decay →
    let den := fmul s.psnap.decay s.sr
    let l := fsub s.env.level (fdiv (fsub 0x3F800000#32 s.psnap.sustain) den)
    ∃ t, exec .tick s = .next t ∧
      t.env = if feq den 0#32 || fle l s.psnap.sustain then { s.env with level := s.psnap.sustain, stage := .sustain }
        else { s.env with level := l }

/-- R152: the RELEASE step of a TICK. -/
def Obligations.ReleaseStepFallsToZero : Prop :=
  ∀ s : State, srValid s = true → s.env.stage = .release →
    let den := fmul s.psnap.release s.sr
    let l := fsub s.env.level (fdiv s.env.relStart den)
    ∃ t, exec .tick s = .next t ∧
      t.env = if feq den 0#32 || fle l 0#32 then { s.env with level := 0#32, stage := .idle }
        else { s.env with level := l }

/-- R153(b): the level does not fall in ATTACK and does not rise in DECAY (from a level not below sustain) and in RELEASE. -/
def Obligations.EnvelopeRampsAreMonotone : Prop :=
  ∀ s : State, srValid s = true → ParamsInRange s.psnap → EnvOk s.env →
    ∃ t, exec .tick s = .next t ∧
      (s.env.stage = .attack → fle s.env.level t.env.level = true) ∧
      (s.env.stage = .decay → fle s.psnap.sustain s.env.level = true → fle t.env.level s.env.level = true) ∧
      (s.env.stage = .release → fle t.env.level s.env.level = true)

/-- R155: where the attack denominator overflows to infinity, a TICK leaves the ATTACK stage and the level's value as they are. -/
def Obligations.OverflowedAttackHoldsTheLevel : Prop :=
  ∀ s : State, srValid s = true → ParamsInRange s.psnap → EnvOk s.env → s.env.stage = .attack → flt s.env.level fOne = true →
    isInf (fmul s.psnap.attack s.sr) = true →
    ∃ t, exec .tick s = .next t ∧ t.env.stage = .attack ∧ feq t.env.level s.env.level = true

/-! ### The datapath of TICK (43_render_tick) -/

/-- R190, R191, R193–R199: what a TICK with a valid rate leaves in every voice register and returns, with the envelope level of the
same TICK (R192). -/
def Obligations.TickComputesTheSampleInOrder : Prop :=
  ∀ s : State, srValid s = true →
    let p := s.psnap
    let v := s.voice
    let cur := if v.glideRem = 0#32 then v.curFreq
      else fadd v.curFreq (fdiv (fsub v.tgtFreq v.curFreq) (u2f v.glideRem))
    let delta := if v.glideRem = 0#32 then v.phaseDelta else fdiv (fmul 0x40C90FDB#32 cur) s.sr
    let alpha := clampf (units.exp (fdiv (fmul 0xC0C90FDB#32 p.toneCutoff) s.sr)) 0#32 0x3F800000#32
    let moved := fadd v.phase delta
    ∃ t, exec .tick s = .next t ∧
      (let raw := fmul (units.sin v.phase) t.env.level
       let k := fmul p.drive 0x40200000#32
       let driven := if fgt p.drive 0#32 then fdiv (units.tanh (fmul k raw)) (units.tanh k) else raw
       let colored := fsub (fadd driven (fmul (fmul (fsub driven v.toneZ0) p.color) 0x3F000000#32))
         (fmul (fmul driven (fneg p.color)) 0x3F000000#32)
       let z0 := fadd (fmul alpha v.toneZ0) (fmul (fsub 0x3F800000#32 alpha) colored)
       let z1 := if s.nch = .mono then v.toneZ1
         else fadd (fmul alpha v.toneZ1) (fmul (fsub 0x3F800000#32 alpha) colored)
       t.voice =
         { phase := if fge moved 0x40C90FDB#32 then fsub moved 0x40C90FDB#32 else moved
           phaseDelta := delta
           curFreq := cur
           tgtFreq := v.tgtFreq
           glideRem := if v.glideRem = 0#32 then 0#32 else v.glideRem - 1#32
           toneZ0 := z0
           toneZ1 := z1 } ∧
       t.rsp = some
         { rdata := 0#32
           frame := some { out0 := fmul z0 p.gain, out1 := if s.nch = .mono then 0#32 else fmul z1 p.gain } })

/-- R201, R269: in stereo the two filter memories stay equal bit for bit, in mono the second stays at +0.0. -/
def Obligations.StepKeepsTheChannelsEqual : Prop :=
  ∀ s t : State, ChannelsOk s → step s = .next t → ChannelsOk t

/-- R201, R199: in stereo the two outputs of a TICK are equal bit for bit; in mono the second is +0.0. -/
def Obligations.TickOutputsAgree : Prop :=
  ∀ s : State, ChannelsOk s →
    ∃ t f, exec .tick s = .next t ∧ t.rsp = some { rdata := 0#32, frame := some f } ∧
      (s.nch = .stereo → f.out1 = f.out0) ∧ (s.nch = .mono → f.out1 = 0#32)

/-- R202, R50(e): every step that leaves an increment in [0, 2π) keeps the phase in [0, 2π). -/
def Obligations.StepKeepsThePhaseBelowTwoPi : Prop :=
  ∀ s t : State, inTurn s.voice.phase → step s = .next t → inTurn t.voice.phaseDelta → inTurn t.voice.phase

/-- R203: for a drive above 0, conforming function units and a finite TANH(k), the drive stage maps ±1.0 to ±1.0 and ±0.0 to ±0.0 and
is odd. That TANH(k) is finite is a premise: R17 does not say it (log 2). -/
def Obligations.DriveKeepsFullScaleZeroAndSign : Prop :=
  ∀ (u : MathUnits) (d x : F), u.Conforming → inRange .drive d → fgt d fZero = true → isFinite (u.tanh (fmul d fKMax)) = true →
    isNaN x = false →
    driveStage u d 0x3F800000#32 = 0x3F800000#32 ∧ driveStage u d 0xBF800000#32 = 0xBF800000#32 ∧
    driveStage u d 0x00000000#32 = 0x00000000#32 ∧ driveStage u d 0x80000000#32 = 0x80000000#32 ∧
    driveStage u d (fneg x) = fneg (driveStage u d x)

/-- R195: with P_color = +0.0 the color stage gives the sample itself, bit for bit for a sample other than −0.0, where the
difference from the filter memory does not overflow (log 15). -/
def Obligations.ColorZeroIsTheIdentity : Prop :=
  ∀ z x : F, isFinite x = true → isFinite z = true → isFinite (fsub x z) = true → x ≠ 0x80000000#32 →
    colorStage 0x00000000#32 z x = x

/-- R197: while enabled, the filter coefficient is a number in [0, 1]. -/
def Obligations.AlphaLiesInTheUnitInterval : Prop :=
  ∀ tone sr : F, inRange .toneCutoff tone → rateValid sr = true → inUnit (alphaOf units tone sr)

/-- R204(a): with a valid rate, the glide count after n TICKs is n lower, and 0 once n reaches it. -/
def Obligations.GlideEndsAfterItsCount : Prop :=
  ∀ (n : Nat) (s : State), srValid s = true →
    ∃ t, runInstrs (List.replicate n .tick) s = some t ∧ t.voice.glideRem.toNat = s.voice.glideRem.toNat - n

/-- R204(c): the last glide step lands on the target exactly where the current frequency is within a factor of two of it. -/
def Obligations.LastGlideStepLandsOnTheTarget : Prop :=
  ∀ s : State, srValid s = true → s.voice.glideRem = 1#32 → isFinite s.voice.curFreq = true → isFinite s.voice.tgtFreq = true →
    0 < fUnits s.voice.curFreq → 0 < fUnits s.voice.tgtFreq → fUnits s.voice.curFreq ≤ 2 * fUnits s.voice.tgtFreq →
    fUnits s.voice.tgtFreq ≤ 2 * fUnits s.voice.curFreq →
    ∃ t, exec .tick s = .next t ∧ t.voice.curFreq = s.voice.tgtFreq ∧ t.voice.glideRem = 0#32

/-! ### F arithmetic (00_scope R13, R17) -/

/-- R13: the sum of two finite values is the nearest representable value to the exact sum, the even one at a tie; it overflows to an
infinity exactly from the largest value's half step on; an exact zero is −0.0 only where both terms are negative (overflow and the
signs of zeros as IEEE 754 has them: log 13). -/
def Obligations.AddIsTheNearestValue : Prop :=
  ∀ a b : F, isFinite a = true → isFinite b = true →
    let r := fadd a b
    let n := fUnits a + fUnits b
    isNaN r = false ∧ (isInf r = true ↔ (2 ^ 25 - 1) * 2 ^ 252 ≤ |n|) ∧
    fSign r = (if n = 0 then fSign a && fSign b else decide (n < 0)) ∧
    (∀ c : F, isFinite r = true → isFinite c = true →
      |fUnits r - n| ≤ |fUnits c - n| ∧ (|fUnits r - n| = |fUnits c - n| → fUnits c ≠ fUnits r → r.getLsbD 0 = false))

/-- R13: the product of two finite values is the nearest representable value to the exact product, the even one at a tie (overflow
and the sign as IEEE 754 has them: log 13). -/
def Obligations.MulIsTheNearestValue : Prop :=
  ∀ a b : F, isFinite a = true → isFinite b = true →
    let r := fmul a b
    let n := fUnits a * fUnits b
    isNaN r = false ∧ (isInf r = true ↔ (2 ^ 25 - 1) * 2 ^ 252 * 2 ^ 149 ≤ |n|) ∧ fSign r = (fSign a != fSign b) ∧
    (∀ c : F, isFinite r = true → isFinite c = true →
      |fUnits r * 2 ^ 149 - n| ≤ |fUnits c * 2 ^ 149 - n| ∧
        (|fUnits r * 2 ^ 149 - n| = |fUnits c * 2 ^ 149 - n| → fUnits c ≠ fUnits r → r.getLsbD 0 = false))

/-- R13: the quotient of a finite value by a finite value other than zero is the nearest representable value to the exact quotient,
the even one at a tie (overflow and the sign as IEEE 754 has them: log 13). -/
def Obligations.DivIsTheNearestValue : Prop :=
  ∀ a b : F, isFinite a = true → isFinite b = true → fUnits b ≠ 0 →
    let r := fdiv a b
    let n := fUnits a * 2 ^ 149
    isNaN r = false ∧ (isInf r = true ↔ (2 ^ 25 - 1) * 2 ^ 252 * |fUnits b| ≤ |n|) ∧ fSign r = (fSign a != fSign b) ∧
    (∀ c : F, isFinite r = true → isFinite c = true →
      |fUnits r * fUnits b - n| ≤ |fUnits c * fUnits b - n| ∧
        (|fUnits r * fUnits b - n| = |fUnits c * fUnits b - n| → fUnits c ≠ fUnits r → r.getLsbD 0 = false))

/-- R17: the machine's function units have every property the spec gives them (read at zero as log 2 says), and every choice of
functions that has them is left as it is by the correction that makes them so (log 1), so the model shuts out no such choice. -/
def Obligations.FunctionUnitsHaveTheirProperties : Prop :=
  units.Conforming ∧ ∀ u : MathUnits, u.Conforming → u.conform = u

/-! ### Frames -/

/-- R31, R75, R120, R122, R123, R221: NOP, READ_REG, WRITE_PARAM and BEGIN_BLOCK leave every register alone but the cells
(WRITE_PARAM), the snapshot (BEGIN_BLOCK) and the fault record (READ_REG), and no command changes what the agents have pending. -/
def Obligations.FrameOfTheRegisterCommands : Prop :=
  ∀ (i : Instr) (s t : State), i.opcode = .nop ∨ i.opcode = .readReg ∨ i.opcode = .writeParam ∨ i.opcode = .beginBlock →
    exec i s = .next t →
    t.sr = s.sr ∧ t.nch = s.nch ∧ t.voice = s.voice ∧ t.env = s.env ∧ t.audio = s.audio ∧ t.control = s.control ∧
    t.arbTurn = s.arbTurn ∧
    (i.opcode ≠ .writeParam → t.pcell = s.pcell) ∧ (i.opcode ≠ .beginBlock → t.psnap = s.psnap) ∧
    (i.opcode ≠ .readReg → t.fault = s.fault ∧ t.faultCause = s.faultCause)

/-- R38, R43, R172, R175, R176, R177: NOTE_ON, NOTE_OFF and ALL_SOUND_OFF leave the cells, the snapshot, rate and count, PHASE, the
filter memories and the fault record alone; NOTE_OFF and ALL_SOUND_OFF leave every voice register alone; NOTE_ON leaves the level and
the release start, NOTE_OFF the level alone. -/
def Obligations.FrameOfTheNoteCommands : Prop :=
  ∀ (i : Instr) (s t : State), i.opcode = .noteOn ∨ i.opcode = .noteOff ∨ i.opcode = .allSoundOff → exec i s = .next t →
    t.pcell = s.pcell ∧ t.psnap = s.psnap ∧ t.sr = s.sr ∧ t.nch = s.nch ∧ t.voice.phase = s.voice.phase ∧
    t.voice.toneZ0 = s.voice.toneZ0 ∧ t.voice.toneZ1 = s.voice.toneZ1 ∧ t.fault = s.fault ∧ t.faultCause = s.faultCause ∧
    t.audio = s.audio ∧ t.control = s.control ∧ t.arbTurn = s.arbTurn ∧
    (i.opcode ≠ .noteOn → t.voice = s.voice) ∧ (i.opcode ≠ .allSoundOff → t.env.level = s.env.level) ∧
    (i.opcode = .noteOn → t.env.relStart = s.env.relStart)

/-- R190–R199, R41, R46, R234: TICK leaves the cells, the snapshot, rate and count, TGT_FREQ, ENV_REL_START, the fault record and, in
mono, TONE_Z[1] alone; with no glide in progress also CUR_FREQ, PHASE_DELTA and GLIDE_REM. -/
def Obligations.FrameOfTick : Prop :=
  ∀ s t : State, exec .tick s = .next t →
    t.pcell = s.pcell ∧ t.psnap = s.psnap ∧ t.sr = s.sr ∧ t.nch = s.nch ∧ t.voice.tgtFreq = s.voice.tgtFreq ∧
    t.env.relStart = s.env.relStart ∧ t.fault = s.fault ∧ t.faultCause = s.faultCause ∧
    t.audio = s.audio ∧ t.control = s.control ∧ t.arbTurn = s.arbTurn ∧
    (s.nch = .mono → t.voice.toneZ1 = s.voice.toneZ1) ∧
    (s.voice.glideRem = 0#32 → t.voice.curFreq = s.voice.curFreq ∧ t.voice.phaseDelta = s.voice.phaseDelta ∧
      t.voice.glideRem = s.voice.glideRem)

/-- R170, R261: PREPARE leaves the cells, the snapshot and what the agents have pending alone, and with a channel count of 1 or 2 the
fault record too; with any other count it leaves everything but the fault record and the response alone. -/
def Obligations.FrameOfPrepare : Prop :=
  ∀ (nchf srw : Word) (s t : State), exec (.prepare nchf srw) s = .next t →
    t.pcell = s.pcell ∧ t.psnap = s.psnap ∧ t.audio = s.audio ∧ t.control = s.control ∧ t.arbTurn = s.arbTurn ∧
    (nchf = 1#32 ∨ nchf = 2#32 → t.fault = s.fault ∧ t.faultCause = s.faultCause) ∧
    (¬(nchf = 1#32 ∨ nchf = 2#32) → t.sr = s.sr ∧ t.nch = s.nch ∧ t.voice = s.voice ∧ t.env = s.env)
end

