-- ==== Sys2Proof/Laws/Decode.lean ====
section
/-!
SUPPORT. What the decoder answers, said once: which words have which opcode, which match which row of the opcode table, and what the
decoder then reads.
-/

namespace Sys2Proof

/-- The opcode field holds an opcode's code exactly when the word's top four bits are those of its match word (30_encoding R94). -/
theorem ofBits_eq_some_iff (w : Word) (o : Opcode) :
    Opcode.ofBits (w.extractLsb' 28 4) = some o ↔ w &&& 0xF0000000#32 = Machine.rowMatch o := by
  have h1 : w &&& 0xF0000000#32 = (w.extractLsb' 28 4).setWidth 32 <<< 28 := by
    ext i hi
    interval_cases i <;> simp
  rw [h1]
  generalize w.extractLsb' 28 4 = b
  revert b
  cases o <;> decide

/-- A word matches a row exactly when it has the row's opcode and no must-be-zero bit set (R94, R98). -/
theorem matches_row_iff (w : Word) (o : Opcode) :
    w &&& Machine.rowMask o = Machine.rowMatch o ↔
      Opcode.ofBits (w.extractLsb' 28 4) = some o ∧ w &&& o.mbzMask = 0#32 := by
  rw [ofBits_eq_some_iff]
  have hm : Machine.rowMask o = 0xF0000000#32 ||| o.mbzMask := by cases o <;> decide
  have hz : Machine.rowMatch o &&& o.mbzMask = 0#32 := by cases o <;> decide
  have ht : Machine.rowMatch o &&& 0xF0000000#32 = Machine.rowMatch o := by cases o <;> decide
  constructor
  · intro h
    constructor
    · rw [← ht, ← h, BitVec.and_assoc, hm]; congr 1; cases o <;> decide
    · rw [← hz, ← h, BitVec.and_assoc, hm]; congr 1; cases o <;> decide
  · rintro ⟨h1, h2⟩
    rw [hm, BitVec.and_or_distrib_left, h1, h2]; simp

@[simp] theorem opcode_operandsOf (o : Opcode) (cmd data : Word) : (operandsOf o cmd data).opcode = o := by cases o <;> rfl

/-- The decoder answers an instruction exactly where the command word matches a row, and then reads the row's operands (R98). -/
theorem decode_eq_ok_iff {t : Transaction} {i : Instr} :
    decode t = .ok i ↔ ∃ o, t.cmd &&& Machine.rowMask o = Machine.rowMatch o ∧ i = operandsOf o t.cmd t.data := by
  unfold decode
  constructor
  · intro h
    split at h
    · cases h
    · next o ho =>
      split at h
      · next hz => exact ⟨o, (matches_row_iff _ _).2 ⟨ho, hz⟩, by injection h with h; exact h.symm⟩
      · cases h
  · rintro ⟨o, h, rfl⟩
    obtain ⟨h1, h2⟩ := (matches_row_iff _ _).1 h
    rw [h1]; simp [h2]

end Sys2Proof
end

