-- ==== Sys2Proof/Laws/Float.lean ====
section
/-!
SUPPORT. What rounding and the F operators do, said once: rounding is monotone and leaves a representable value alone, so every
bound on an exact result by a representable value is a bound on the rounded one.
-/

namespace Sys2Proof.Machine

/-! ### Bit patterns -/

theorem infMag_lt : infMag < 2 ^ 31 := by decide

theorem fMag_lt (x : F) : fMag x < 2 ^ 31 := Nat.mod_lt _ (by decide)

theorem toNat_packF (s : Bool) {m : Nat} (h : m < 2 ^ 31) : (packF s m).toNat = if s then 2 ^ 31 + m else m := by
  unfold packF
  rw [BitVec.toNat_ofNat]
  apply Nat.mod_eq_of_lt
  cases s
  · simp; omega
  · simp; omega

theorem fMag_packF (s : Bool) {m : Nat} (h : m < 2 ^ 31) : fMag (packF s m) = m := by
  unfold fMag
  rw [toNat_packF s h]
  cases s
  · simpa using Nat.mod_eq_of_lt h
  · simp only [if_true]; omega

theorem fSign_eq (x : F) : fSign x = decide (2 ^ 31 ≤ x.toNat) := by
  unfold fSign
  rw [BitVec.msb_eq_decide]

theorem fSign_packF (s : Bool) {m : Nat} (h : m < 2 ^ 31) : fSign (packF s m) = s := by
  rw [fSign_eq, toNat_packF s h]
  cases s
  · simp; omega
  · simp

theorem packF_fields (x : F) : packF (fSign x) (fMag x) = x := by
  apply BitVec.eq_of_toNat_eq
  rw [toNat_packF _ (fMag_lt x), fSign_eq]
  unfold fMag
  have := x.isLt
  by_cases h : 2 ^ 31 ≤ x.toNat
  · simp only [h, decide_true, if_true]; omega
  · simp only [h, decide_false]; simp; omega

theorem fMag_fneg (x : F) : fMag (fneg x) = fMag x := by
  unfold fMag fneg
  rw [BitVec.toNat_xor, Nat.xor_mod_two_pow]
  simp

theorem fSign_fneg (x : F) : fSign (fneg x) = !fSign x := by
  unfold fSign fneg
  rw [BitVec.msb_xor]
  simp [show (0x80000000#32 : BitVec 32).msb = true from by decide]

theorem fneg_fneg (x : F) : fneg (fneg x) = x := by
  unfold fneg
  rw [BitVec.xor_assoc]
  simp

theorem fneg_packF (s : Bool) {m : Nat} (h : m < 2 ^ 31) : fneg (packF s m) = packF (!s) m := by
  rw [← packF_fields (fneg (packF s m)), fSign_fneg, fMag_fneg, fSign_packF s h, fMag_packF s h]

@[simp] theorem isNaN_fneg (x : F) : isNaN (fneg x) = isNaN x := by simp [isNaN, fMag_fneg]
@[simp] theorem isInf_fneg (x : F) : isInf (fneg x) = isInf x := by simp [isInf, fMag_fneg]
@[simp] theorem isFinite_fneg (x : F) : isFinite (fneg x) = isFinite x := by simp [isFinite, fMag_fneg]

theorem fUnits_fneg (x : F) : fUnits (fneg x) = -fUnits x := by
  unfold fUnits
  rw [fSign_fneg, fMag_fneg]
  cases fSign x <;> simp

/-! ### Magnitudes in units -/

/-- The significand `r` and the exponent `k` of a magnitude pattern give its units, a significand of 2^24 included. -/
theorem magUnits_split {k r : Nat} (hk : k = 0 ∨ 2 ^ 23 ≤ r) (hr : r ≤ 2 ^ 24) : magUnits (k * 2 ^ 23 + r) = r * 2 ^ k := by
  unfold magUnits
  rcases Nat.lt_or_ge r (2 ^ 23) with hsmall | hbig
  · have hk0 : k = 0 := by omega
    rw [if_pos (by omega), hk0]; simp
  · rw [if_neg (by omega)]
    rcases Nat.lt_or_eq_of_le hr with hlt | heq
    · have h1 : (k * 2 ^ 23 + r) % 2 ^ 23 = r - 2 ^ 23 := by omega
      have h2 : (k * 2 ^ 23 + r) / 2 ^ 23 - 1 = k := by omega
      rw [h1, h2, Nat.add_sub_cancel' hbig]
    · have h1 : (k * 2 ^ 23 + r) % 2 ^ 23 = 0 := by omega
      have h2 : (k * 2 ^ 23 + r) / 2 ^ 23 - 1 = k + 1 := by omega
      rw [h1, h2, heq, Nat.add_zero, ← Nat.pow_add, ← Nat.pow_add, show 23 + (k + 1) = 24 + k by omega]

/-- Every magnitude pattern has a significand below 2^24 and an exponent. -/
theorem exists_split (m : Nat) : ∃ k r, m = k * 2 ^ 23 + r ∧ (k = 0 ∨ 2 ^ 23 ≤ r) ∧ r < 2 ^ 24 := by
  by_cases h : m < 2 ^ 23
  · exact ⟨0, m, by simp, .inl rfl, by omega⟩
  · exact ⟨m / 2 ^ 23 - 1, m % 2 ^ 23 + 2 ^ 23, by omega, .inr (by omega), by omega⟩

theorem magUnits_strictMono : StrictMono magUnits := by
  apply strictMono_nat_of_lt_succ
  intro m
  obtain ⟨k, r, rfl, hk, hr⟩ := exists_split m
  rw [magUnits_split hk (by omega), show k * 2 ^ 23 + r + 1 = k * 2 ^ 23 + (r + 1) by ring,
    magUnits_split (by omega) (by omega)]
  exact Nat.mul_lt_mul_of_pos_right (by omega) (by positivity)

@[simp] theorem magUnits_zero : magUnits 0 = 0 := by decide

theorem magUnits_eq_zero {m : Nat} : magUnits m = 0 ↔ m = 0 := by
  constructor
  · intro h; by_contra hne
    have := magUnits_strictMono (Nat.pos_of_ne_zero hne)
    simp [h] at this
  · rintro rfl; simp

/-! ### Rounding to an integer -/

/-- `roundEven` is the nearest integer, and even at a tie. -/
theorem roundEven_near {n d : Nat} (hd : 0 < d) :
    2 * n ≤ (2 * roundEven n d + 1) * d ∧ 2 * roundEven n d * d ≤ 2 * n + d ∧
      (2 * n = (2 * roundEven n d + 1) * d ∨ 2 * roundEven n d * d = 2 * n + d → roundEven n d % 2 = 0) := by
  have hmod := Nat.mod_lt n hd
  have hdiv := Nat.div_add_mod n d
  unfold roundEven
  generalize n / d = q at *
  generalize n % d = r at *
  simp only
  have e : d * q = q * d := Nat.mul_comm d q
  split
  · refine ⟨by nlinarith, by nlinarith, ?_⟩
    rintro (h | h) <;> exfalso <;> nlinarith
  · split
    · refine ⟨by nlinarith, by nlinarith, ?_⟩
      rintro (h | h) <;> exfalso <;> nlinarith
    · have htie : 2 * r = d := by omega
      rcases Nat.mod_two_eq_zero_or_one q with hq | hq
      · rw [hq]
        refine ⟨by nlinarith, by nlinarith, fun _ => by omega⟩
      · rw [hq]
        refine ⟨by nlinarith, by nlinarith, fun _ => by omega⟩

theorem roundEven_mono {n d n' d' : Nat} (hd : 0 < d) (hd' : 0 < d') (h : n * d' ≤ n' * d) : roundEven n d ≤ roundEven n' d' := by
  obtain ⟨-, a2, a3⟩ := roundEven_near (n := n) hd
  obtain ⟨b1, -, b3⟩ := roundEven_near (n := n') hd'
  generalize roundEven n d = q at *
  generalize roundEven n' d' = q' at *
  by_contra hlt
  push Not at hlt
  have hpos : 0 < d * d' := Nat.mul_pos hd hd'
  -- the two intervals can only meet in one point, a tie of both
  have h1 : (2 * q * d) * d' ≤ (2 * n + d) * d' := Nat.mul_le_mul_right _ a2
  have h2 : (2 * n') * d ≤ ((2 * q' + 1) * d') * d := Nat.mul_le_mul_right _ b1
  have h3 : q' + 1 ≤ q := hlt
  have h4 : (q' + 1) * (d * d') ≤ q * (d * d') := Nat.mul_le_mul_right _ h3
  have hq : q = q' + 1 := by
    by_contra hne
    have h5 : (q' + 2) * (d * d') ≤ q * (d * d') := Nat.mul_le_mul_right _ (by omega)
    nlinarith
  subst hq
  have t1 : 2 * (q' + 1) * d = 2 * n + d := by
    apply Nat.le_antisymm a2
    by_contra hc
    push Not at hc
    have := Nat.mul_lt_mul_of_pos_right hc hd'
    nlinarith
  have t2 : 2 * n' = (2 * q' + 1) * d' := by
    apply Nat.le_antisymm b1
    by_contra hc
    push Not at hc
    have := Nat.mul_lt_mul_of_pos_right hc hd
    nlinarith
  have e1 := a3 (.inr t1)
  have e2 := b3 (.inl t2)
  omega

theorem roundEven_exact (r : Nat) {d : Nat} (hd : 0 < d) : roundEven (r * d) d = r := by
  unfold roundEven
  simp [Nat.mul_div_cancel _ hd, hd]

/-! ### Rounding to a magnitude pattern -/

/-- The exponent `roundMag` rounds at. -/
theorem roundMag_exponent {n d : Nat} (hd : 0 < d) :
    (Nat.log2 (n / d) - 23 = 0 ∨ 2 ^ 23 * (d * 2 ^ (Nat.log2 (n / d) - 23)) ≤ n) ∧
      n < 2 ^ 24 * (d * 2 ^ (Nat.log2 (n / d) - 23)) := by
  have hlt : n / d < 2 ^ (Nat.log2 (n / d) + 1) := Nat.lt_log2_self
  have hn : n < (n / d + 1) * d := by
    have := Nat.div_add_mod n d
    have := Nat.mod_lt n hd
    nlinarith
  have hdn : n / d * d ≤ n := Nat.div_mul_le_self n d
  generalize hq : n / d = q at *
  constructor
  · by_cases hk : Nat.log2 q - 23 = 0
    · exact .inl hk
    · right
      have hq0 : q ≠ 0 := by rintro rfl; simp at hk
      have hle := Nat.log2_self_le hq0
      have : 2 ^ 23 * 2 ^ (Nat.log2 q - 23) = 2 ^ Nat.log2 q := by rw [← Nat.pow_add]; congr 1; omega
      calc 2 ^ 23 * (d * 2 ^ (Nat.log2 q - 23)) = (2 ^ 23 * 2 ^ (Nat.log2 q - 23)) * d := by ring
        _ = 2 ^ Nat.log2 q * d := by rw [this]
        _ ≤ q * d := Nat.mul_le_mul_right _ hle
        _ ≤ n := hdn
  · have hpow : 2 ^ (Nat.log2 q + 1) ≤ 2 ^ 24 * 2 ^ (Nat.log2 q - 23) := by
      rw [← Nat.pow_add]; exact Nat.pow_le_pow_right (by decide) (by omega)
    calc n < (q + 1) * d := hn
      _ ≤ 2 ^ (Nat.log2 q + 1) * d := Nat.mul_le_mul_right _ hlt
      _ ≤ (2 ^ 24 * 2 ^ (Nat.log2 q - 23)) * d := Nat.mul_le_mul_right _ hpow
      _ = 2 ^ 24 * (d * 2 ^ (Nat.log2 q - 23)) := by ring

/-- Before the cap at infinity, a rounded magnitude is a significand and an exponent. -/
theorem roundMag_split (n : Nat) {d : Nat} (hd : 0 < d) :
    ∃ k r, roundMag n d = min (k * 2 ^ 23 + r) infMag ∧ (k = 0 ∨ 2 ^ 23 ≤ r) ∧ r ≤ 2 ^ 24 ∧ r = roundEven n (d * 2 ^ k) ∧
      k = Nat.log2 (n / d) - 23 ∧ (k = 0 ∨ 2 ^ 23 * (d * 2 ^ k) ≤ n) ∧ n < 2 ^ 24 * (d * 2 ^ k) := by
  obtain ⟨h1, h2⟩ := roundMag_exponent (n := n) hd
  have hpos : 0 < d * 2 ^ (Nat.log2 (n / d) - 23) := Nat.mul_pos hd (by positivity)
  refine ⟨Nat.log2 (n / d) - 23, _, rfl, ?_, ?_, rfl, rfl, h1, h2⟩
  · rcases h1 with h1 | h1
    · exact .inl h1
    · right
      calc 2 ^ 23 = roundEven (2 ^ 23 * (d * 2 ^ (Nat.log2 (n / d) - 23))) (d * 2 ^ (Nat.log2 (n / d) - 23)) :=
            (roundEven_exact _ hpos).symm
        _ ≤ _ := roundEven_mono hpos hpos (Nat.mul_le_mul_right _ h1)
  · calc roundEven n (d * 2 ^ (Nat.log2 (n / d) - 23))
        ≤ roundEven (2 ^ 24 * (d * 2 ^ (Nat.log2 (n / d) - 23))) (d * 2 ^ (Nat.log2 (n / d) - 23)) :=
          roundEven_mono hpos hpos (Nat.mul_le_mul_right _ h2.le)
      _ = 2 ^ 24 := roundEven_exact _ hpos

theorem roundMag_le_infMag (n d : Nat) : roundMag n d ≤ infMag := Nat.min_le_right _ _

theorem roundMag_lt (n d : Nat) : roundMag n d < 2 ^ 31 := lt_of_le_of_lt (roundMag_le_infMag n d) infMag_lt

/-- Rounding is monotone in the exact value `n / d`. -/
theorem roundMag_mono {n d n' d' : Nat} (hd : 0 < d) (hd' : 0 < d') (h : n * d' ≤ n' * d) : roundMag n d ≤ roundMag n' d' := by
  obtain ⟨k, r, e, hk, hr, hre, hkd, hlo, hhi⟩ := roundMag_split n hd
  obtain ⟨k', r', e', hk', hr', hre', hkd', hlo', hhi'⟩ := roundMag_split n' hd'
  rw [e, e']
  apply min_le_min_right
  have hq : n / d ≤ n' / d' := by
    rw [Nat.le_div_iff_mul_le hd']
    have h1 : n / d * d ≤ n := Nat.div_mul_le_self n d
    have h2 : (n / d * d') * d ≤ n' * d :=
      calc (n / d * d') * d = (n / d * d) * d' := by ring
        _ ≤ n * d' := Nat.mul_le_mul_right _ h1
        _ ≤ n' * d := h
    exact Nat.le_of_mul_le_mul_right h2 hd
  have hkk : k ≤ k' := by
    rw [hkd, hkd']
    have : Nat.log2 (n / d) ≤ Nat.log2 (n' / d') := by
      rcases Nat.eq_zero_or_pos (n / d) with h0 | h0
      · rw [h0]; simp
      · rw [Nat.log2_eq_log_two, Nat.log2_eq_log_two]; exact Nat.log_mono_right hq
    omega
  rcases Nat.lt_or_eq_of_le hkk with hlt | heq
  · have : 2 ^ 23 ≤ r' := by rcases hk' with h0 | h0 <;> omega
    omega
  · subst heq
    have : r ≤ r' := by
      rw [hre, hre']
      refine roundEven_mono (Nat.mul_pos hd (by positivity)) (Nat.mul_pos hd' (by positivity)) ?_
      calc n * (d' * 2 ^ k) = (n * d') * 2 ^ k := by ring
        _ ≤ (n' * d) * 2 ^ k := Nat.mul_le_mul_right _ h
        _ = n' * (d * 2 ^ k) := by ring
    omega

/-- Rounding leaves a representable magnitude alone. -/
theorem roundMag_exact {m d : Nat} (hd : 0 < d) (hm : m ≤ infMag) : roundMag (magUnits m * d) d = m := by
  obtain ⟨k, r, rfl, hk, hr⟩ := exists_split m
  rw [magUnits_split hk (by omega)]
  unfold roundMag
  rw [Nat.mul_div_cancel _ hd]
  have hlog : Nat.log2 (r * 2 ^ k) - 23 = k := by
    rcases hk with h0 | h0
    · subst h0
      rcases Nat.eq_zero_or_pos r with hz | hz
      · subst hz; simp
      · have := (Nat.log2_lt (n := r) (k := 24) (by omega)).2 hr
        simp; omega
    · have hne : r * 2 ^ k ≠ 0 := by positivity
      have h1 : Nat.log2 (r * 2 ^ k) < 24 + k := by
        rw [Nat.log2_lt hne, Nat.pow_add]
        exact Nat.mul_lt_mul_of_pos_right hr (by positivity)
      have h2 : 23 + k ≤ Nat.log2 (r * 2 ^ k) := by
        rw [Nat.le_log2 hne, Nat.pow_add]
        exact Nat.mul_le_mul_right _ h0
      omega
  simp only [hlog]
  rw [show r * 2 ^ k * d = r * (d * 2 ^ k) by ring, roundEven_exact _ (Nat.mul_pos hd (by positivity))]
  exact Nat.min_eq_left hm

theorem roundMag_le_of_le {n d m : Nat} (hd : 0 < d) (hm : m ≤ infMag) (h : n ≤ magUnits m * d) : roundMag n d ≤ m :=
  calc roundMag n d ≤ roundMag (magUnits m * d) d := roundMag_mono hd hd (Nat.mul_le_mul_right _ h)
    _ = m := roundMag_exact hd hm

theorem le_roundMag_of_le {n d m : Nat} (hd : 0 < d) (hm : m ≤ infMag) (h : magUnits m * d ≤ n) : m ≤ roundMag n d :=
  calc m = roundMag (magUnits m * d) d := (roundMag_exact hd hm).symm
    _ ≤ roundMag n d := roundMag_mono hd hd (Nat.mul_le_mul_right _ h)

theorem roundMag_zero {d : Nat} (hd : 0 < d) : roundMag 0 d = 0 := by
  simpa using roundMag_exact (m := 0) hd (by decide)

/-! ### Classes and values of rounded results -/

theorem isNaN_eq_false {x : F} : isNaN x = false ↔ fMag x ≤ infMag := by simp [isNaN]

theorem isFinite_iff {x : F} : isFinite x = true ↔ fMag x < infMag := by simp [isFinite]

theorem isNaN_of_isFinite {x : F} (h : isFinite x = true) : isNaN x = false := by
  rw [isFinite_iff] at h; rw [isNaN_eq_false]; omega

theorem isInf_of_isFinite {x : F} (h : isFinite x = true) : isInf x = false := by
  rw [isFinite_iff] at h; simp [isInf]; omega

theorem isFinite_or_isInf {x : F} (h : isNaN x = false) : isFinite x = true ∨ isInf x = true := by
  rw [isNaN_eq_false] at h
  rw [isFinite_iff]
  simp only [isInf, beq_iff_eq]
  omega

theorem isNaN_packF (s : Bool) {m : Nat} (h : m ≤ infMag) : isNaN (packF s m) = false := by
  rw [isNaN_eq_false, fMag_packF s (lt_of_le_of_lt h infMag_lt)]; exact h

theorem fUnits_packF (s : Bool) {m : Nat} (h : m ≤ infMag) :
    fUnits (packF s m) = if s then -(magUnits m : Int) else (magUnits m : Int) := by
  unfold fUnits
  have h' := lt_of_le_of_lt h infMag_lt
  rw [fSign_packF s h', fMag_packF s h']

theorem isNaN_roundF (s : Bool) (n d : Nat) : isNaN (roundF s n d) = false := isNaN_packF s (roundMag_le_infMag n d)

theorem natAbs_fUnits (x : F) : (fUnits x).natAbs = magUnits (fMag x) := by
  unfold fUnits; split <;> simp

/-- The exact integer `n` rounded, in units. -/
def roundInt (n : Int) : Int := if n < 0 then -(magUnits (roundMag n.natAbs 1) : Int) else (magUnits (roundMag n.natAbs 1) : Int)

theorem roundInt_nonneg {n : Int} (h : 0 ≤ n) : 0 ≤ roundInt n := by
  unfold roundInt; rw [if_neg (by omega)]; omega

theorem roundInt_mono {a b : Int} (h : a ≤ b) : roundInt a ≤ roundInt b := by
  unfold roundInt
  split
  · split
    · have := magUnits_strictMono.monotone
        (roundMag_mono (n := b.natAbs) (n' := a.natAbs) (d := 1) (d' := 1) (by decide) (by decide) (by omega))
      omega
    · omega
  · rw [if_neg (by omega)]
    have := magUnits_strictMono.monotone
      (roundMag_mono (n := a.natAbs) (n' := b.natAbs) (d := 1) (d' := 1) (by decide) (by decide) (by omega))
    omega

theorem roundInt_fUnits {x : F} (h : isNaN x = false) : roundInt (fUnits x) = fUnits x := by
  rw [isNaN_eq_false] at h
  have e : roundMag (fUnits x).natAbs 1 = fMag x := by
    rw [natAbs_fUnits]; simpa using roundMag_exact (d := 1) (by decide) h
  unfold roundInt
  rw [e]
  have := natAbs_fUnits x
  split <;> omega

/-! ### Sum and difference -/

/-- The sum of two finite values is the exact sum, rounded. -/
theorem addOr_finite {nan a b : F} (ha : isFinite a = true) (hb : isFinite b = true) :
    isNaN (addOr nan a b) = false ∧ fUnits (addOr nan a b) = roundInt (fUnits a + fUnits b) := by
  unfold addOr
  simp only [isNaN_of_isFinite ha, isNaN_of_isFinite hb, isInf_of_isFinite ha, isInf_of_isFinite hb, Bool.or_self,
    Bool.false_eq_true, if_false]
  split
  · next h0 =>
    refine ⟨isNaN_packF _ (by decide), ?_⟩
    rw [fUnits_packF _ (by decide), h0]
    simp [roundInt, roundMag_zero]
  · refine ⟨isNaN_roundF _ _ _, ?_⟩
    unfold roundF roundInt
    rw [fUnits_packF _ (roundMag_le_infMag _ _)]
    simp

theorem fadd_finite {a b : F} (ha : isFinite a = true) (hb : isFinite b = true) :
    isNaN (fadd a b) = false ∧ fUnits (fadd a b) = roundInt (fUnits a + fUnits b) := addOr_finite ha hb

theorem fsub_finite {a b : F} (ha : isFinite a = true) (hb : isFinite b = true) :
    isNaN (fsub a b) = false ∧ fUnits (fsub a b) = roundInt (fUnits a - fUnits b) := by
  have := addOr_finite (nan := freeNaN .sub a b) ha (b := fneg b) (by simpa using hb)
  rw [fUnits_fneg] at this
  exact this

/-- A finite value plus an infinity is that infinity. -/
theorem addOr_inf {nan a b : F} (ha : isFinite a = true) (hb : isInf b = true) : addOr nan a b = b := by
  have hn : isNaN b = false := by
    rw [isNaN_eq_false]; simp only [isInf, beq_iff_eq] at hb; omega
  unfold addOr
  simp [isNaN_of_isFinite ha, hn, isInf_of_isFinite ha, hb]

theorem abs_fUnits_le_of_isFinite {a b : F} (ha : isFinite a = true) (hb : isInf b = true) : (fUnits a).natAbs < (fUnits b).natAbs := by
  rw [natAbs_fUnits, natAbs_fUnits]
  apply magUnits_strictMono
  rw [isFinite_iff] at ha
  simp only [isInf, beq_iff_eq] at hb
  omega

theorem isNaN_of_isInf {b : F} (hb : isInf b = true) : isNaN b = false := by
  rw [isNaN_eq_false]; simp only [isInf, beq_iff_eq] at hb; omega

/-- Adding a value that is not negative to a finite value does not lower it. -/
theorem fadd_ge {a b : F} (ha : isFinite a = true) (hb : isNaN b = false) (h0 : 0 ≤ fUnits b) :
    isNaN (fadd a b) = false ∧ fUnits a ≤ fUnits (fadd a b) := by
  rcases isFinite_or_isInf hb with hf | hi
  · obtain ⟨h1, h2⟩ := fadd_finite ha hf
    refine ⟨h1, ?_⟩
    rw [h2, ← roundInt_fUnits (isNaN_of_isFinite ha)]
    exact roundInt_mono (by rw [roundInt_fUnits (isNaN_of_isFinite ha)]; omega)
  · have : fadd a b = b := addOr_inf ha hi
    rw [this]
    have := abs_fUnits_le_of_isFinite ha hi
    exact ⟨hb, by omega⟩

/-- Subtracting a value that is not negative from a finite value does not raise it. -/
theorem fsub_le {a b : F} (ha : isFinite a = true) (hb : isNaN b = false) (h0 : 0 ≤ fUnits b) :
    isNaN (fsub a b) = false ∧ fUnits (fsub a b) ≤ fUnits a := by
  rcases isFinite_or_isInf hb with hf | hi
  · obtain ⟨h1, h2⟩ := fsub_finite ha hf
    refine ⟨h1, ?_⟩
    rw [h2, ← roundInt_fUnits (isNaN_of_isFinite ha)]
    exact roundInt_mono (by rw [roundInt_fUnits (isNaN_of_isFinite ha)]; omega)
  · have : fsub a b = fneg b := addOr_inf ha (by simpa using hi)
    rw [this, fUnits_fneg]
    have := abs_fUnits_le_of_isFinite ha hi
    exact ⟨by simpa using hb, by omega⟩

/-! ### Product and quotient -/

theorem fSign_of_nonneg {x : F} (h : 0 < fUnits x) : fSign x = false := by
  unfold fUnits at h
  by_contra hs
  simp only [Bool.not_eq_false] at hs
  rw [if_pos hs] at h
  omega

theorem fUnits_of_pos {x : F} (h : 0 < fUnits x) : fUnits x = magUnits (fMag x) := by
  unfold fUnits; rw [fSign_of_nonneg h]; simp

theorem fMag_pos {x : F} (h : 0 < fUnits x) : 0 < fMag x := by
  rw [fUnits_of_pos h] at h
  by_contra h0
  have : fMag x = 0 := by omega
  rw [this] at h; simp at h

/-- The product of two finite values is the exact product, rounded. -/
theorem fmul_finite {a b : F} (ha : isFinite a = true) (hb : isFinite b = true) :
    fmul a b = roundF (fSign a != fSign b) (magUnits (fMag a) * magUnits (fMag b)) (2 ^ 149) := by
  unfold fmul
  simp [isNaN_of_isFinite ha, isNaN_of_isFinite hb, isInf_of_isFinite ha, isInf_of_isFinite hb]

/-- A positive finite value times a finite value of at least 1 is a number at least as large. -/
theorem fmul_ge_left {a b : F} (ha : isFinite a = true) (hb : isFinite b = true) (h0 : 0 < fUnits a) (h1 : 2 ^ 149 ≤ fUnits b) :
    isNaN (fmul a b) = false ∧ fUnits a ≤ fUnits (fmul a b) := by
  have hb0 : 0 < fUnits b := by omega
  rw [fmul_finite ha hb, fSign_of_nonneg h0, fSign_of_nonneg hb0]
  refine ⟨isNaN_roundF _ _ _, ?_⟩
  unfold roundF
  rw [fUnits_packF _ (roundMag_le_infMag _ _), fUnits_of_pos h0]
  rw [fUnits_of_pos hb0] at h1
  have hle : fMag a ≤ roundMag (magUnits (fMag a) * magUnits (fMag b)) (2 ^ 149) := by
    apply le_roundMag_of_le (by positivity)
    · rw [isFinite_iff] at ha; omega
    · exact Nat.mul_le_mul_left _ (by exact_mod_cast h1)
  have := magUnits_strictMono.monotone hle
  simpa using this

/-- A quotient of a finite value that is not negative by a positive value is a number that is not negative. -/
theorem fdiv_nonneg {a b : F} (ha : isFinite a = true) (hb : isNaN b = false) (h0 : 0 ≤ fUnits a) (h1 : 0 < fUnits b) :
    isNaN (fdiv a b) = false ∧ 0 ≤ fUnits (fdiv a b) := by
  have hm : fMag b ≠ 0 := (fMag_pos h1).ne'
  unfold fdiv
  simp only [isNaN_of_isFinite ha, hb, isInf_of_isFinite ha, Bool.or_self, Bool.false_eq_true, if_false, hm]
  split
  · exact ⟨isNaN_packF _ (by decide), by rw [fUnits_packF _ (by decide)]; simp⟩
  · refine ⟨isNaN_roundF _ _ _, ?_⟩
    rcases Int.lt_or_eq_of_le h0 with hpos | hz
    · unfold roundF
      rw [fSign_of_nonneg hpos, fSign_of_nonneg h1, fUnits_packF _ (roundMag_le_infMag _ _)]
      simp
    · have hz' : magUnits (fMag a) = 0 := by rw [← natAbs_fUnits, ← hz]; rfl
      unfold roundF
      rw [hz', fUnits_packF _ (roundMag_le_infMag _ _), Nat.zero_mul, roundMag_zero]
      · simp
      · have := magUnits_strictMono (Nat.pos_of_ne_zero hm); simpa using this

/-! ### Comparisons as facts about units -/

theorem fle_iff {a b : F} : fle a b = true ↔ isNaN a = false ∧ isNaN b = false ∧ fUnits a ≤ fUnits b := by
  simp [fle, ordered, and_assoc]

theorem flt_iff {a b : F} : flt a b = true ↔ isNaN a = false ∧ isNaN b = false ∧ fUnits a < fUnits b := by
  simp [flt, ordered, and_assoc]

theorem feq_iff {a b : F} : feq a b = true ↔ isNaN a = false ∧ isNaN b = false ∧ fUnits a = fUnits b := by
  simp [feq, ordered, and_assoc]

theorem isFinite_of_bounds {lo x hi : F} (hlo : isFinite lo = true) (hhi : isFinite hi = true) (h1 : fle lo x = true) (h2 : fle x hi = true) :
    isFinite x = true := by
  obtain ⟨-, hx, h1⟩ := fle_iff.1 h1
  obtain ⟨-, -, h2⟩ := fle_iff.1 h2
  rcases isFinite_or_isInf hx with h | h
  · exact h
  · have a := abs_fUnits_le_of_isFinite hlo h
    have b := abs_fUnits_le_of_isFinite hhi h
    omega

/-! ### Exact differences (Sterbenz) -/

theorem magUnits_infMag : magUnits infMag = 2 ^ 277 := by decide +kernel

/-- A significand of at most 24 bits at any exponent up to the top is representable. -/
theorem exists_magUnits {j : Nat} (k : Nat) (hj : j ≤ 2 ^ 24) (hle : j * 2 ^ k ≤ magUnits infMag) :
    ∃ m, m ≤ infMag ∧ magUnits m = j * 2 ^ k := by
  induction k generalizing j with
  | zero =>
    refine ⟨j, ?_, ?_⟩
    · have : (2 : Nat) ^ 24 ≤ infMag := by decide
      omega
    · simpa using magUnits_split (k := 0) (.inl rfl) hj
  | succ k ih =>
    rcases Nat.lt_or_ge j (2 ^ 23) with h | h
    · obtain ⟨m, h1, h2⟩ := ih (j := 2 * j) (by omega) (by rw [Nat.pow_succ] at hle; linarith)
      exact ⟨m, h1, by rw [h2, Nat.pow_succ]; ring⟩
    · have e := magUnits_split (k := k + 1) (.inr h) hj
      refine ⟨(k + 1) * 2 ^ 23 + j, ?_, e⟩
      rw [← e] at hle
      exact magUnits_strictMono.le_iff_le.1 hle

/-- An integer whose magnitude is representable is not changed by rounding. -/
theorem roundInt_exact {n : Int} {m : Nat} (hm : m ≤ infMag) (h : n.natAbs = magUnits m) : roundInt n = n := by
  have e : roundMag n.natAbs 1 = m := by rw [h]; simpa using roundMag_exact (d := 1) (by decide) hm
  unfold roundInt
  rw [e]
  split <;> omega

/-- The difference of two positive magnitudes within a factor of two of each other is representable. -/
theorem exists_magUnits_sub {a b : Nat} (h1 : a ≤ b) (hb : b ≤ infMag) (h2 : magUnits b ≤ 2 * magUnits a) :
    ∃ m, m ≤ infMag ∧ magUnits m = magUnits b - magUnits a := by
  have hmb : magUnits b ≤ magUnits infMag := magUnits_strictMono.monotone hb
  obtain ⟨k, r, rfl, hk, hr⟩ := exists_split a
  obtain ⟨k', r', rfl, hk', hr'⟩ := exists_split b
  rw [magUnits_split hk (by omega)] at *
  rw [magUnits_split hk' (by omega)] at *
  have hkk : k ≤ k' := by
    by_contra hlt
    have : 2 ^ 23 ≤ r := by omega
    omega
  obtain ⟨e, rfl⟩ := Nat.exists_eq_add_of_le hkk
  have hsub : r' * 2 ^ (k + e) - r * 2 ^ k = (r' * 2 ^ e - r) * 2 ^ k := by
    rw [Nat.sub_mul, Nat.pow_add]; ring_nf
  rw [hsub]
  apply exists_magUnits
  · have : r' * 2 ^ e * 2 ^ k ≤ 2 * r * 2 ^ k := by rw [Nat.pow_add] at h2; linarith
    have := Nat.le_of_mul_le_mul_right this (by positivity)
    omega
  · calc (r' * 2 ^ e - r) * 2 ^ k ≤ r' * 2 ^ e * 2 ^ k := Nat.mul_le_mul_right _ (Nat.sub_le _ _)
      _ = r' * 2 ^ (k + e) := by rw [Nat.pow_add]; ring
      _ ≤ _ := hmb

/-- Sterbenz's lemma: the difference of two positive finite values within a factor of two of each other is exact. -/
theorem fsub_exact {a b : F} (ha : isFinite a = true) (hb : isFinite b = true) (h0 : 0 < fUnits a) (h1 : 0 < fUnits b)
    (hab : fUnits a ≤ 2 * fUnits b) (hba : fUnits b ≤ 2 * fUnits a) :
    isNaN (fsub a b) = false ∧ fUnits (fsub a b) = fUnits a - fUnits b := by
  obtain ⟨n, e⟩ := fsub_finite ha hb
  refine ⟨n, ?_⟩
  rw [e]
  rw [isFinite_iff] at ha hb
  rw [fUnits_of_pos h0, fUnits_of_pos h1] at *
  rcases Nat.le_total (fMag a) (fMag b) with h | h
  · obtain ⟨m, hm, hv⟩ := exists_magUnits_sub h hb.le (by exact_mod_cast hba)
    have := magUnits_strictMono.monotone h
    exact roundInt_exact hm (by omega)
  · obtain ⟨m, hm, hv⟩ := exists_magUnits_sub h ha.le (by exact_mod_cast hab)
    have := magUnits_strictMono.monotone h
    exact roundInt_exact hm (by omega)

/-- Two numbers of the same value other than zero have the same bits. -/
theorem eq_of_fUnits_eq {a b : F} (h : fUnits a = fUnits b) (h0 : fUnits b ≠ 0) : a = b := by
  have hm : fMag a = fMag b := by
    apply magUnits_strictMono.injective
    rw [← natAbs_fUnits, ← natAbs_fUnits, h]
  have hs : fSign a = fSign b := by
    unfold fUnits at h h0
    rw [hm] at h
    revert h h0
    cases fSign a <;> cases fSign b <;> simp
  rw [← packF_fields a, ← packF_fields b, hm, hs]

/-! ### Nearest -/

/-- A rounded magnitude that is not infinite is a nearest representable one, and even where another is as near. -/
theorem roundMag_nearest {n d : Nat} (hd : 0 < d) (hfin : roundMag n d < infMag) (m : Nat) :
    |((magUnits (roundMag n d) * d : Nat) : Int) - n| ≤ |((magUnits m * d : Nat) : Int) - n| ∧
      (|((magUnits (roundMag n d) * d : Nat) : Int) - n| = |((magUnits m * d : Nat) : Int) - n| → m ≠ roundMag n d →
        roundMag n d % 2 = 0) := by
  obtain ⟨k, r, e, hk, hr, hre, -, hlo, hhi⟩ := roundMag_split n hd
  have e' : roundMag n d = k * 2 ^ 23 + r := by omega
  rw [e', magUnits_split hk hr]
  obtain ⟨k', r', rfl, hk', hr'⟩ := exists_split m
  rw [magUnits_split hk' (by omega)]
  have hD : 0 < d * 2 ^ k := Nat.mul_pos hd (by positivity)
  obtain ⟨n1, n2, n3⟩ := roundEven_near (n := n) hD
  rw [← hre] at n1 n2 n3
  have hR : r * 2 ^ k * d = r * (d * 2 ^ k) := by ring
  have hodd : (k * 2 ^ 23 + r) % 2 = r % 2 := by omega
  rw [hR, hodd]
  generalize hDD : d * 2 ^ k = D at *
  have key : ∃ V : Nat, r' * 2 ^ k' * d = V ∧ (V = r * D ∨ (V ≤ (r - 1) * D ∧ 1 ≤ r) ∨ (r + 1) * D ≤ V ∨ (V < 2 ^ 23 * D ∧ 0 < k)) := by
    refine ⟨_, rfl, ?_⟩
    rcases Nat.lt_or_ge k' k with h | h
    · right; right; right
      refine ⟨?_, by omega⟩
      obtain ⟨j, rfl⟩ := Nat.exists_eq_add_of_lt h
      calc r' * 2 ^ k' * d < 2 ^ 24 * 2 ^ k' * d :=
            Nat.mul_lt_mul_of_pos_right (Nat.mul_lt_mul_of_pos_right hr' (by positivity)) hd
        _ = 2 ^ 23 * (d * 2 ^ (k' + 1)) := by rw [Nat.pow_succ 2 k']; ring
        _ ≤ 2 ^ 23 * (d * 2 ^ (k' + j + 1)) :=
            Nat.mul_le_mul_left _ (Nat.mul_le_mul_left _ (Nat.pow_le_pow_right (by decide) (by omega)))
        _ = 2 ^ 23 * D := by rw [hDD]
    · obtain ⟨e, rfl⟩ := Nat.exists_eq_add_of_le h
      have hV : r' * 2 ^ (k + e) * d = (r' * 2 ^ e) * D := by rw [← hDD, Nat.pow_add]; ring
      rw [hV]
      generalize r' * 2 ^ e = q
      rcases Nat.lt_trichotomy q r with hq | hq | hq
      · exact .inr (.inl ⟨Nat.mul_le_mul_right _ (by omega), by omega⟩)
      · exact .inl (by rw [hq])
      · exact .inr (.inr (.inl (Nat.mul_le_mul_right _ (by omega))))
  have hdist : k' * 2 ^ 23 + r' ≠ k * 2 ^ 23 + r → r' * 2 ^ k' * d ≠ r * D := by
    intro hne heq
    apply hne
    apply magUnits_strictMono.injective
    rw [magUnits_split hk' (by omega), magUnits_split hk hr]
    have : r' * 2 ^ k' * d = r * 2 ^ k * d := by rw [heq, hR]
    exact Nat.eq_of_mul_eq_mul_right hd this
  obtain ⟨V, hV, hcase⟩ := key
  rw [hV] at hdist ⊢
  have n1' : 2 * (n : Int) ≤ 2 * (r * D : Nat) + D := by push_cast; nlinarith [(by exact_mod_cast n1 : 2 * (n : Int) ≤ (2 * r + 1) * D)]
  have n2' : 2 * ((r * D : Nat) : Int) ≤ 2 * n + D := by push_cast; nlinarith [(by exact_mod_cast n2 : 2 * (r : Int) * D ≤ 2 * n + D)]
  have n3' : (2 * (n : Int) = 2 * (r * D : Nat) + D ∨ 2 * ((r * D : Nat) : Int) = 2 * n + D) → r % 2 = 0 := by
    intro h
    apply n3
    rcases h with h | h
    · left
      have : 2 * n = 2 * (r * D) + D := by exact_mod_cast h
      rw [this]; ring
    · right
      have : 2 * (r * D) = 2 * n + D := by exact_mod_cast h
      rw [← this]; ring
  have hDpos : (0 : Int) < D := by exact_mod_cast hD
  rcases hcase with h | ⟨h, h1⟩ | h | ⟨h, h1⟩
  · exact ⟨by rw [h], fun _ hne => absurd h (hdist hne)⟩
  · have hz : (r - 1) * D = r * D - D := by rw [Nat.sub_mul]; simp
    have hrD : D ≤ r * D := Nat.le_mul_of_pos_left _ h1
    have hV' : (V : Int) ≤ (r * D : Nat) - D := by omega
    generalize ((r * D : Nat) : Int) = R at *
    constructor
    · rw [abs_le]; rw [abs_of_nonpos (by omega : (V : Int) - n ≤ 0)]; omega
    · intro heq _
      apply n3'
      rw [abs_of_nonpos (by omega : (V : Int) - n ≤ 0)] at heq
      rcases abs_choice (R - n) with hc | hc <;> omega
  · have hz : (r + 1) * D = r * D + D := by ring
    have hV' : ((r * D : Nat) : Int) + D ≤ V := by omega
    generalize ((r * D : Nat) : Int) = R at *
    constructor
    · rw [abs_le]; rw [abs_of_nonneg (by omega : 0 ≤ (V : Int) - n)]; omega
    · intro heq _
      apply n3'
      rw [abs_of_nonneg (by omega : 0 ≤ (V : Int) - n)] at heq
      rcases abs_choice (R - n) with hc | hc <;> omega
  · have hr23 : 2 ^ 23 ≤ r := by omega
    have hn : 2 ^ 23 * D ≤ n := by rcases hlo with h0 | h0 <;> omega
    have hb : 2 ^ 23 * D ≤ r * D := Nat.mul_le_mul_right _ hr23
    have hcut : 2 ^ 23 * D = r * D ∨ 2 ^ 23 * D + D ≤ r * D := by
      rcases Nat.lt_or_eq_of_le hr23 with h2 | h2
      · right
        calc 2 ^ 23 * D + D = (2 ^ 23 + 1) * D := by ring
          _ ≤ r * D := Nat.mul_le_mul_right _ h2
      · left; rw [h2]
    generalize hRR : r * D = R at *
    generalize 2 ^ 23 * D = B at *
    have hlt : |(R : Int) - n| < |(V : Int) - n| := by
      rw [abs_of_nonpos (by omega : (V : Int) - n ≤ 0), abs_lt]
      constructor <;> omega
    exact ⟨hlt.le, fun heq _ => absurd heq hlt.ne⟩

/-- A magnitude rounds to infinity exactly from half a step past the largest finite value on. -/
theorem roundMag_eq_infMag_iff {n d : Nat} (hd : 0 < d) : roundMag n d = infMag ↔ (2 ^ 25 - 1) * 2 ^ 252 * d ≤ n := by
  constructor
  · intro h
    by_contra hlt
    push Not at hlt
    obtain ⟨k, r, e, hk, hr, hre, -, hlo, hhi⟩ := roundMag_split n hd
    have hD : 0 < d * 2 ^ k := Nat.mul_pos hd (by positivity)
    obtain ⟨-, n2, n3⟩ := roundEven_near (n := n) hD
    rw [← hre] at n2 n3
    have hk' : k ≤ 253 := by
      by_contra hk2
      rcases hlo with h0 | h0
      · omega
      · have : 2 ^ 23 * (d * 2 ^ 254) ≤ 2 ^ 23 * (d * 2 ^ k) :=
          Nat.mul_le_mul_left _ (Nat.mul_le_mul_left _ (Nat.pow_le_pow_right (by decide) (by omega)))
        omega
    have : infMag = 255 * 2 ^ 23 := by decide
    rcases Nat.lt_or_eq_of_le hk' with h2 | h2
    · omega
    · subst h2
      have : r < 2 ^ 24 := by
        by_contra hge
        have : r = 2 ^ 24 := by omega
        rw [this] at n2
        omega
      omega
  · intro h
    apply le_antisymm (roundMag_le_infMag _ _)
    have h1 : roundMag ((2 ^ 25 - 1) * 2 ^ 252) 1 = infMag := by decide +kernel
    rw [← h1]
    exact roundMag_mono (by decide) hd (by omega)

/-- An even magnitude pattern gives an even bit pattern. -/
theorem packF_lsb (s : Bool) {m : Nat} (h : m < 2 ^ 31) (he : m % 2 = 0) : (packF s m).getLsbD 0 = false := by
  rw [← BitVec.testBit_toNat, toNat_packF s h]
  cases s
  · simp [Nat.testBit_zero]; omega
  · simp [Nat.testBit_zero]; omega

/-- A finite rounded value with a sign is a nearest representable one, and even where another is as near. -/
theorem roundF_near {s : Bool} {n d : Nat} (hd : 0 < d) {c : F} (hf : isFinite (roundF s n d) = true) :
    |fUnits (roundF s n d) * d - (if s then -(n : Int) else n)| ≤ |fUnits c * d - (if s then -(n : Int) else n)| ∧
      (|fUnits (roundF s n d) * d - (if s then -(n : Int) else n)| = |fUnits c * d - (if s then -(n : Int) else n)| →
        fUnits c ≠ fUnits (roundF s n d) → (roundF s n d).getLsbD 0 = false) := by
  unfold roundF at hf ⊢
  have hlt := roundMag_lt n d
  rw [isFinite_iff, fMag_packF s hlt] at hf
  obtain ⟨h1, h2⟩ := roundMag_nearest hd hf (fMag c)
  rw [fUnits_packF _ hf.le]
  -- the candidate of the same sign is at least as near as c
  have hc : |((magUnits (fMag c) * d : Nat) : Int) - n| ≤ |fUnits c * d - (if s then -(n : Int) else n)| ∧
     (|((magUnits (fMag c) * d : Nat) : Int) - n| = |fUnits c * d - (if s then -(n : Int) else n)| → 
        n = 0 ∨ magUnits (fMag c) = 0 ∨ fSign c = s) := by
    unfold fUnits
    generalize magUnits (fMag c) = M
    have hM : (0:Int) ≤ M * d := by positivity
    push_cast
    have hn : (0 : Int) ≤ n := by positivity
    cases hs : s <;> cases hcs : fSign c <;> simp only [Bool.false_eq_true, if_false, if_true]
    · exact ⟨le_refl _, fun _ => .inr (.inr trivial)⟩
    · have e : -(M : Int) * d - n = -(M * d + n) := by ring
      rw [e, abs_neg, abs_of_nonneg (by omega : (0 : Int) ≤ M * d + n)]
      refine ⟨by rw [abs_le]; omega, fun h => ?_⟩
      rcases abs_choice ((M : Int) * d - n) with h' | h' <;> rw [h'] at h
      · left; omega
      · right; left
        have : (M : Int) * d = 0 := by omega
        have := mul_eq_zero.1 this
        omega
    · have e : (M : Int) * d - -n = M * d + n := by ring
      rw [e, abs_of_nonneg (by omega : (0 : Int) ≤ M * d + n)]
      refine ⟨by rw [abs_le]; omega, fun h => ?_⟩
      rcases abs_choice ((M : Int) * d - n) with h' | h' <;> rw [h'] at h
      · left; omega
      · right; left
        have : (M : Int) * d = 0 := by omega
        have := mul_eq_zero.1 this
        omega
    · have e : -(M : Int) * d - -n = -(M * d - n) := by ring
      rw [e, abs_neg]
      exact ⟨le_refl _, fun _ => .inr (.inr trivial)⟩
  have hr : |(if s = true then -(magUnits (roundMag n d) : Int) else (magUnits (roundMag n d) : Int)) * d -
      (if s then -(n : Int) else n)| = |((magUnits (roundMag n d) * d : Nat) : Int) - n| := by
    push_cast
    cases s <;> simp only [Bool.false_eq_true, if_false, if_true]
    rw [← abs_neg]; congr 1; ring
  rw [hr]
  refine ⟨h1.trans hc.1, ?_⟩
  intro heq hne
  apply packF_lsb _ hlt
  have h3 : |((magUnits (roundMag n d) * d : Nat) : Int) - n| = |((magUnits (fMag c) * d : Nat) : Int) - n| :=
    le_antisymm h1 (hc.1.trans heq.symm.le)
  by_cases hm : fMag c = roundMag n d
  · -- same magnitude: then c differs in sign only
    rcases hc.2 (h3.symm.trans heq) with h0 | h0 | h0
    · rw [h0, roundMag_zero hd]
    · rw [hm] at h0; rw [magUnits_eq_zero.1 h0]
    · exfalso; apply hne; unfold fUnits; rw [hm, h0]
  · exact h2 h3 hm

end Sys2Proof.Machine
end

