-- ==== Sys2Proof/Laws/State.lean ====
section
/-!
SUPPORT. One lemma per field for each update of the state that the meanings share, so that no proof unfolds a record update.
-/

namespace Sys2Proof.Machine

/-! ### Answering a transaction writes the response and nothing else -/

@[simp] theorem answer_pcell (r : Response) (s : State) : (answer r s).pcell = s.pcell := rfl
@[simp] theorem answer_psnap (r : Response) (s : State) : (answer r s).psnap = s.psnap := rfl
@[simp] theorem answer_sr (r : Response) (s : State) : (answer r s).sr = s.sr := rfl
@[simp] theorem answer_nch (r : Response) (s : State) : (answer r s).nch = s.nch := rfl
@[simp] theorem answer_voice (r : Response) (s : State) : (answer r s).voice = s.voice := rfl
@[simp] theorem answer_env (r : Response) (s : State) : (answer r s).env = s.env := rfl
@[simp] theorem answer_fault (r : Response) (s : State) : (answer r s).fault = s.fault := rfl
@[simp] theorem answer_faultCause (r : Response) (s : State) : (answer r s).faultCause = s.faultCause := rfl
@[simp] theorem answer_audio (r : Response) (s : State) : (answer r s).audio = s.audio := rfl
@[simp] theorem answer_control (r : Response) (s : State) : (answer r s).control = s.control := rfl
@[simp] theorem answer_arbTurn (r : Response) (s : State) : (answer r s).arbTurn = s.arbTurn := rfl
@[simp] theorem answer_rsp (r : Response) (s : State) : (answer r s).rsp = some r := rfl

@[simp] theorem answerNone_pcell (s : State) : (answerNone s).pcell = s.pcell := rfl
@[simp] theorem answerNone_psnap (s : State) : (answerNone s).psnap = s.psnap := rfl
@[simp] theorem answerNone_sr (s : State) : (answerNone s).sr = s.sr := rfl
@[simp] theorem answerNone_nch (s : State) : (answerNone s).nch = s.nch := rfl
@[simp] theorem answerNone_voice (s : State) : (answerNone s).voice = s.voice := rfl
@[simp] theorem answerNone_env (s : State) : (answerNone s).env = s.env := rfl
@[simp] theorem answerNone_fault (s : State) : (answerNone s).fault = s.fault := rfl
@[simp] theorem answerNone_faultCause (s : State) : (answerNone s).faultCause = s.faultCause := rfl
@[simp] theorem answerNone_audio (s : State) : (answerNone s).audio = s.audio := rfl
@[simp] theorem answerNone_control (s : State) : (answerNone s).control = s.control := rfl
@[simp] theorem answerNone_arbTurn (s : State) : (answerNone s).arbTurn = s.arbTurn := rfl
@[simp] theorem answerNone_rsp (s : State) : (answerNone s).rsp = some (rdataResponse 0#32) := rfl

@[simp] theorem srValid_answer (r : Response) (s : State) : srValid (answer r s) = srValid s := rfl
@[simp] theorem srValid_answerNone (s : State) : srValid (answerNone s) = srValid s := rfl

/-! ### Raising a fault writes the fault record and the response and nothing else -/

@[simp] theorem raiseFault_pcell (c : FaultCause) (s : State) : (raiseFault c s).pcell = s.pcell := by unfold raiseFault; split <;> rfl
@[simp] theorem raiseFault_psnap (c : FaultCause) (s : State) : (raiseFault c s).psnap = s.psnap := by unfold raiseFault; split <;> rfl
@[simp] theorem raiseFault_sr (c : FaultCause) (s : State) : (raiseFault c s).sr = s.sr := by unfold raiseFault; split <;> rfl
@[simp] theorem raiseFault_nch (c : FaultCause) (s : State) : (raiseFault c s).nch = s.nch := by unfold raiseFault; split <;> rfl
@[simp] theorem raiseFault_voice (c : FaultCause) (s : State) : (raiseFault c s).voice = s.voice := by unfold raiseFault; split <;> rfl
@[simp] theorem raiseFault_env (c : FaultCause) (s : State) : (raiseFault c s).env = s.env := by unfold raiseFault; split <;> rfl
@[simp] theorem raiseFault_audio (c : FaultCause) (s : State) : (raiseFault c s).audio = s.audio := by unfold raiseFault; split <;> rfl
@[simp] theorem raiseFault_control (c : FaultCause) (s : State) : (raiseFault c s).control = s.control := by unfold raiseFault; split <;> rfl
@[simp] theorem raiseFault_arbTurn (c : FaultCause) (s : State) : (raiseFault c s).arbTurn = s.arbTurn := by unfold raiseFault; split <;> rfl
@[simp] theorem raiseFault_rsp (c : FaultCause) (s : State) : (raiseFault c s).rsp = some (rdataResponse 0#32) := by
  unfold raiseFault; split <;> rfl
@[simp] theorem raiseFault_fault (c : FaultCause) (s : State) : (raiseFault c s).fault = true := by
  unfold raiseFault; split <;> simp_all
theorem raiseFault_faultCause (c : FaultCause) (s : State) :
    (raiseFault c s).faultCause = if s.fault then s.faultCause else causeCode c := by
  unfold raiseFault; split <;> rfl

end Sys2Proof.Machine
end

