-- ==== Sys2Proof/Laws/Ops.lean ====
section
/-!
SUPPORT. What each shared operation can do, said once: the cells, the register map, the fault record, the arbiter.
-/

namespace Sys2Proof.Machine

/-! ### Parameter cells -/

@[simp] theorem getParam_setParam_self (ps : Params) (p : Param) (v : F) : getParam (setParam ps p v) p = v := by
  cases p <;> rfl

theorem getParam_setParam_of_ne {p q : Param} (h : q ≠ p) (ps : Params) (v : F) : getParam (setParam ps p v) q = getParam ps q := by
  cases p <;> cases q <;> first | rfl | exact absurd rfl h

theorem paramOfIndex_eq_none {i : Word} (h : 10 ≤ i.toNat) : paramOfIndex i = none := by
  unfold paramOfIndex
  split <;> first | rfl | omega

theorem paramOfIndex_isSome {i : Word} (h : i.toNat < 10) : ∃ p, paramOfIndex i = some p := by
  unfold paramOfIndex
  generalize i.toNat = n at h
  interval_cases n <;> exact ⟨_, rfl⟩

/-! ### Raising a fault -/

/-- The whole effect of `raise Fault(cause)` (60_exceptions R234). -/
theorem raiseFault_eq (c : FaultCause) (s : State) :
    raiseFault c s =
      { s with
        fault := true
        faultCause := if s.fault then s.faultCause else causeCode c
        rsp := some { rdata := 0#32, frame := none } } := by
  unfold raiseFault
  split
  · next h =>
    cases s
    simp only at h
    simp [answerNone, answer, rdataResponse, h]
  · next h =>
    simp [answerNone, answer, rdataResponse]

theorem causeCode_ne_zero (c : FaultCause) : causeCode c ≠ 0#4 := by cases c <;> decide

/-! ### Taking the next transaction -/

/-- The block takes the first transaction of one of the two agents and leaves the other agent's alone (20_memory R77). -/
theorem takeTransaction_cases {s s' : State} {t : Transaction} (h : takeTransaction s = some (t, s')) :
    (s.audio = t :: s'.audio ∧ s'.control = s.control ∨ s.control = t :: s'.control ∧ s'.audio = s.audio) ∧
      s' = { s with audio := s'.audio, control := s'.control, arbTurn := s'.arbTurn } := by
  cases s
  unfold takeTransaction at h
  simp only at h
  split at h
  · simp at h
  · simp only [Option.some.injEq, Prod.mk.injEq] at h; obtain ⟨rfl, rfl⟩ := h; simp
  · simp only [Option.some.injEq, Prod.mk.injEq] at h; obtain ⟨rfl, rfl⟩ := h; simp
  · split at h <;> (simp only [Option.some.injEq, Prod.mk.injEq] at h; obtain ⟨rfl, rfl⟩ := h; simp)

/-- No transaction is taken exactly when neither agent has one pending. -/
theorem takeTransaction_eq_none {s : State} : takeTransaction s = none ↔ s.audio = [] ∧ s.control = [] := by
  unfold takeTransaction
  cases s.audio <;> cases s.control <;> simp
  split <;> simp

end Sys2Proof.Machine
end

