-- ==== Sys2Proof/Laws/Envelope.lean ====
section
/-!
SUPPORT. What the envelope's micro-operations and the phase accumulator keep, and the bounds of a stage's denominator.
-/

namespace Sys2Proof.Machine

theorem inUnit_iff {x : F} : inUnit x ↔ isNaN x = false ∧ 0 ≤ fUnits x ∧ fUnits x ≤ 2 ^ 149 := by
  unfold inUnit
  rw [fle_iff, fle_iff]
  have h0 : isNaN fZero = false ∧ fUnits fZero = 0 := by decide +kernel
  have h1 : isNaN fOne = false ∧ fUnits fOne = 2 ^ 149 := by decide +kernel
  rw [h0.1, h0.2, h1.1, h1.2]
  tauto

theorem isFinite_of_inUnit {x : F} (h : inUnit x) : isFinite x = true :=
  isFinite_of_bounds (lo := fZero) (hi := fOne) (by decide +kernel) (by decide +kernel) h.1 h.2

theorem inUnit_zero : inUnit fZero := ⟨by decide +kernel, by decide +kernel⟩
theorem inUnit_one : inUnit fOne := ⟨by decide +kernel, by decide +kernel⟩

/-- Every bound of a parameter's range is finite. -/
theorem isFinite_paramLo (p : Param) : isFinite (paramLo p) = true := by cases p <;> decide +kernel
theorem isFinite_paramHi (p : Param) : isFinite (paramHi p) = true := by cases p <;> decide +kernel
theorem paramLo_le_paramHi (p : Param) : fle (paramLo p) (paramHi p) = true := by cases p <;> decide +kernel

theorem isFinite_of_inRange {p : Param} {v : F} (h : inRange p v) : isFinite v = true :=
  isFinite_of_bounds (isFinite_paramLo p) (isFinite_paramHi p) h.1 h.2

/-- A conditioned value lies in its range (40_parameters R121). -/
theorem condValue_inRange {p : Param} {v : F} (hv : isNaN v = false) : inRange p (condValue p v) := by
  have hlo : isNaN (paramLo p) = false := isNaN_of_isFinite (isFinite_paramLo p)
  have hhi : isNaN (paramHi p) = false := isNaN_of_isFinite (isFinite_paramHi p)
  have hlh := paramLo_le_paramHi p
  have hc : inRange p (clampf v (paramLo p) (paramHi p)) := by
    unfold clampf inRange
    by_cases h1 : flt v (paramLo p) = true
    · rw [if_pos h1]
      exact ⟨fle_iff.2 ⟨hlo, hlo, le_refl _⟩, hlh⟩
    · rw [if_neg h1]
      by_cases h2 : fgt v (paramHi p) = true
      · rw [if_pos h2]
        exact ⟨hlh, fle_iff.2 ⟨hhi, hhi, le_refl _⟩⟩
      · rw [if_neg h2]
        unfold fgt at h2
        rw [flt_iff] at h1 h2
        simp only [hv, hlo, hhi, true_and, not_lt] at h1 h2
        exact ⟨fle_iff.2 ⟨hlo, hv, h1⟩, fle_iff.2 ⟨hv, hhi, h2⟩⟩
  unfold condValue
  simp only
  split
  · next h0 =>
    obtain ⟨hn, hz, hu⟩ := feq_iff.1 h0
    obtain ⟨⟨-, -, a⟩, ⟨-, -, b⟩⟩ := And.intro (fle_iff.1 hc.1) (fle_iff.1 hc.2)
    exact ⟨fle_iff.2 ⟨hlo, hz, by omega⟩, fle_iff.2 ⟨hz, hhi, by omega⟩⟩
  · exact hc

/-- A write to the cells keeps every cell in its range. -/
theorem writeCell_inRange {cells : Params} (h : ParamsInRange cells) (i : Word) (v : F) : ParamsInRange (writeCell i v cells) := by
  unfold writeCell
  split
  · exact h
  · next p _ =>
    split
    · exact h
    · next hv =>
      intro q
      by_cases hq : q = p
      · subst hq; rw [getParam_setParam_self]; exact condValue_inRange (by simpa using hv)
      · rw [getParam_setParam_of_ne hq]; exact h q

theorem rateValid_iff {sr : F} : rateValid sr = true ↔ isFinite sr = true ∧ 2 ^ 149 ≤ fUnits sr := by
  unfold rateValid fge
  rw [Bool.and_eq_true, fle_iff]
  have h1 : isNaN srMin = false ∧ fUnits srMin = 2 ^ 149 := by decide +kernel
  rw [h1.1, h1.2]
  constructor
  · rintro ⟨a, -, -, b⟩; exact ⟨a, b⟩
  · rintro ⟨a, b⟩; exact ⟨a, rfl, isNaN_of_isFinite a, b⟩

/-- While the block is enabled, a stage's denominator is a number above 0 (41_envelope R155). -/
theorem denominator_pos {p : Param} {v sr : F} (hp : 0 < fUnits (paramLo p)) (hv : inRange p v) (hsr : rateValid sr = true) :
    isNaN (fmul v sr) = false ∧ 0 < fUnits (fmul v sr) := by
  obtain ⟨hf, h1⟩ := rateValid_iff.1 hsr
  have hv0 : 0 < fUnits v := lt_of_lt_of_le hp (fle_iff.1 hv.1).2.2
  obtain ⟨a, b⟩ := fmul_ge_left (isFinite_of_inRange hv) hf hv0 h1
  exact ⟨a, by omega⟩

/-- `ENV_NEXT_SAMPLE` keeps the envelope's bounds (10_state R50(b) to (d)). -/
theorem envNextSample_ok {p : Params} {sr : F} {e : Env} (hp : ParamsInRange p) (hsr : rateValid sr = true) (he : EnvOk e) :
    EnvOk (envNextSample p sr e) := by
  obtain ⟨hl, hr, hi⟩ := he
  have hs : inUnit p.sustain := hp .sustain
  have lf := isFinite_of_inUnit hl
  have sf := isFinite_of_inUnit hs
  have rf := isFinite_of_inUnit hr
  obtain ⟨ln, l0, l1⟩ := inUnit_iff.1 hl
  obtain ⟨sn, s0, s1⟩ := inUnit_iff.1 hs
  obtain ⟨rn, r0, r1⟩ := inUnit_iff.1 hr
  have z : isNaN fZero = false ∧ fUnits fZero = 0 := by decide +kernel
  have o : isFinite fOne = true ∧ isNaN fOne = false ∧ fUnits fOne = 2 ^ 149 := by decide +kernel
  unfold envNextSample
  split
  · exact ⟨inUnit_zero, hr, fun _ => rfl⟩
  · unfold stepAttack
    simp only
    split
    · exact ⟨inUnit_one, hr, fun h => by simp at h⟩
    · split
      · exact ⟨inUnit_one, hr, fun h => by simp at h⟩
      · next hge =>
        obtain ⟨dn, d0⟩ := denominator_pos (p := .attack) (v := p.attack) (by decide +kernel) (hp .attack) hsr
        obtain ⟨qn, q0⟩ := fdiv_nonneg o.1 dn (by rw [o.2.2]; positivity) d0
        obtain ⟨an, a0⟩ := fadd_ge lf qn q0
        unfold fge at hge
        rw [fle_iff] at hge
        simp only [o.2.1, o.2.2, true_and, not_and, not_le] at hge
        exact ⟨inUnit_iff.2 ⟨an, le_trans l0 a0, (hge an).le⟩, hr, fun h => by simp_all⟩
  · unfold stepDecay
    simp only
    split
    · exact ⟨hs, hr, fun h => by simp at h⟩
    · split
      · exact ⟨hs, hr, fun h => by simp at h⟩
      · next hle =>
        obtain ⟨dn, d0⟩ := denominator_pos (p := .decay) (v := p.decay) (by decide +kernel) (hp .decay) hsr
        obtain ⟨un, uv⟩ := fsub_finite o.1 sf
        obtain ⟨-, u1⟩ := fsub_le o.1 sn s0
        have u0 : 0 ≤ fUnits (fsub fOne p.sustain) := by rw [uv, o.2.2]; exact roundInt_nonneg (by omega)
        have uf : isFinite (fsub fOne p.sustain) = true :=
          isFinite_of_inUnit (inUnit_iff.2 ⟨un, u0, by rw [o.2.2] at u1; exact u1⟩)
        obtain ⟨qn, q0⟩ := fdiv_nonneg uf dn u0 d0
        obtain ⟨an, a0⟩ := fsub_le lf qn q0
        rw [fle_iff] at hle
        simp only [sn, true_and, not_and, not_le] at hle
        exact ⟨inUnit_iff.2 ⟨an, le_trans s0 (hle an).le, le_trans a0 l1⟩, hr, fun h => by simp_all⟩
  · exact ⟨hs, hr, fun h => by simp_all [stepSustain]⟩
  · unfold stepRelease
    simp only
    split
    · exact ⟨inUnit_zero, hr, fun _ => rfl⟩
    · split
      · exact ⟨inUnit_zero, hr, fun _ => rfl⟩
      · next hle =>
        obtain ⟨dn, d0⟩ := denominator_pos (p := .release) (v := p.release) (by decide +kernel) (hp .release) hsr
        obtain ⟨qn, q0⟩ := fdiv_nonneg rf dn r0 d0
        obtain ⟨an, a0⟩ := fsub_le lf qn q0
        rw [fle_iff] at hle
        simp only [z.1, z.2, true_and, not_and, not_le] at hle
        exact ⟨inUnit_iff.2 ⟨an, (hle an).le, le_trans a0 l1⟩, hr, fun h => by simp_all⟩

/-- The phase stays in [0, 2π) where the increment lies there (43_render R202). -/
theorem phaseAdvance_inTurn {x d : F} (hx : inTurn x) (hd : inTurn d) : inTurn (phaseAdvance x d) := by
  have t : isFinite twoPi = true ∧ fMag twoPi = 0x40C90FDB := by decide +kernel
  have tn := isNaN_of_isFinite t.1
  have tp : 0 < fUnits twoPi := by decide +kernel
  have z : isNaN fZero = false ∧ isFinite fZero = true ∧ fUnits fZero = 0 := by decide +kernel
  have top : isNaN 0x41490FDA#32 = false ∧ fUnits 0x41490FDA#32 < 2 * fUnits twoPi ∧
      fUnits 0x41490FDA#32 = 2 * (magUnits 0x40C90FDA : Int) := by decide +kernel
  obtain ⟨⟨-, xn, x0⟩, ⟨-, -, x1⟩⟩ := And.intro (fle_iff.1 hx.1) (flt_iff.1 hx.2)
  obtain ⟨⟨-, dn, d0⟩, ⟨-, -, d1⟩⟩ := And.intro (fle_iff.1 hd.1) (flt_iff.1 hd.2)
  rw [z.2.2] at x0 d0
  have fin : ∀ y : F, isNaN y = false → 0 ≤ fUnits y → fUnits y < fUnits twoPi → isFinite y = true := fun y hn h0 h1 =>
    isFinite_of_bounds z.2.1 t.1 (fle_iff.2 ⟨z.1, hn, by rw [z.2.2]; exact h0⟩) (fle_iff.2 ⟨hn, tn, h1.le⟩)
  have xf := fin x xn x0 x1
  have df := fin d dn d0 d1
  -- the largest value below 2π bounds both terms, and twice it is representable
  have below : ∀ y : F, 0 ≤ fUnits y → fUnits y < fUnits twoPi → fUnits y ≤ (magUnits 0x40C90FDA : Int) := by
    intro y h0 h1
    have h2 : fMag y < fMag twoPi := by
      rw [← magUnits_strictMono.lt_iff_lt, ← natAbs_fUnits, ← natAbs_fUnits]; omega
    have h3 := magUnits_strictMono.monotone (show fMag y ≤ 0x40C90FDA by omega)
    have := natAbs_fUnits y
    omega
  obtain ⟨sn, sv⟩ := fadd_finite xf df
  have s0 : 0 ≤ fUnits (fadd x d) := by rw [sv]; exact roundInt_nonneg (by omega)
  have s2 : fUnits (fadd x d) < 2 * fUnits twoPi := by
    have h := below x x0 x1
    have h' := below d d0 d1
    rw [sv]
    calc roundInt (fUnits x + fUnits d) ≤ roundInt (fUnits 0x41490FDA#32) := roundInt_mono (by omega)
      _ = fUnits 0x41490FDA#32 := roundInt_fUnits top.1
      _ < _ := top.2.1
  unfold phaseAdvance
  simp only
  split
  · next hge =>
    obtain ⟨-, -, h⟩ := fle_iff.1 hge
    have sf : isFinite (fadd x d) = true := by
      refine isFinite_of_bounds (hi := 0x42000000#32) z.2.1 (by decide +kernel)
        (fle_iff.2 ⟨z.1, sn, by rw [z.2.2]; exact s0⟩) (fle_iff.2 ⟨sn, by decide +kernel, ?_⟩)
      have : 2 * fUnits twoPi ≤ fUnits 0x42000000#32 := by decide +kernel
      omega
    obtain ⟨rn, rv⟩ := fsub_exact sf t.1 (by omega) tp (by omega) (by omega)
    exact ⟨fle_iff.2 ⟨z.1, rn, by rw [rv, z.2.2]; omega⟩, flt_iff.2 ⟨rn, tn, by rw [rv]; omega⟩⟩
  · next hlt =>
    unfold fge at hlt
    rw [fle_iff] at hlt
    simp only [tn, sn, true_and, not_le] at hlt
    exact ⟨fle_iff.2 ⟨z.1, sn, by rw [z.2.2]; exact s0⟩, flt_iff.2 ⟨sn, tn, hlt⟩⟩

end Sys2Proof.Machine
end

