-- ==== Sys2Proof/Laws/Exec.lean ====
section
/-!
SUPPORT. What a command and a step can do, said once: the next state of each command as an equation over the state's fields, and the
three ways a step answers.
-/

namespace Sys2Proof.Machine

/-! ### Commands -/

theorem exec_nop (s : State) : exec .nop s = .next (answerNone s) := rfl

theorem exec_beginBlock (s : State) : exec .beginBlock s = .next (answerNone { s with psnap := s.pcell }) := rfl

theorem exec_writeParam (i v : Word) (s : State) :
    exec (.writeParam i v) s = .next (answerNone { s with pcell := writeCell i v s.pcell }) := rfl

theorem exec_noteOn (n : Word) (s : State) : exec (.noteOn n) s = .next (noteOnWith units n s) := rfl

theorem exec_noteOff (n : Word) (s : State) :
    exec (.noteOff n) s = .next (if srValid s then answerNone { s with env := envNoteOff s.env } else answerNone s) := rfl

theorem exec_allSoundOff (s : State) :
    exec .allSoundOff s = .next (if srValid s then answerNone { s with env := Env.zero } else answerNone s) := rfl

theorem exec_tick (s : State) : exec .tick s = .next (tickWith units s) := rfl

/-- PREPARE with a channel count it accepts, and with another (42_voice_control R170). -/
theorem exec_prepare_some {n : Word} {c : Channels} (h : channelsOfCount n = some c) (r : Word) (s : State) :
    exec (.prepare n r) s = .next (answerNone { s with sr := r, nch := c, voice := Voice.zero, env := Env.zero }) := by
  simp only [exec, execPrepare, h]; rfl

theorem exec_prepare_none {n : Word} (h : channelsOfCount n = none) (r : Word) (s : State) :
    exec (.prepare n r) s = .next (raiseFault .badChannelCount s) := by
  simp only [exec, execPrepare, h]

/-- READ_REG of a mapped address, and of another (44_access R220). -/
theorem exec_readReg_some {a : Word} {r : Reg} (h : regOfAddr a = some r) (s : State) :
    exec (.readReg a) s = .next (answer (rdataResponse (readReg s r)) s) := by
  simp only [exec, execReadReg, h]

theorem exec_readReg_none {a : Word} (h : regOfAddr a = none) (s : State) :
    exec (.readReg a) s = .next (raiseFault .badRegAddress s) := by
  simp only [exec, execReadReg, h]

/-- The channel counts PREPARE accepts are 1 and 2 (10_state R37). -/
theorem channelsOfCount_eq_none {n : Word} (h1 : n ≠ 1#32) (h2 : n ≠ 2#32) : channelsOfCount n = none := by
  unfold channelsOfCount
  split
  · next h => exact absurd (BitVec.eq_of_toNat_eq (by simpa using h)) h1
  · next h => exact absurd (BitVec.eq_of_toNat_eq (by simpa using h)) h2
  · rfl

/-- Every command answers a next state. -/
theorem exec_answers (i : Instr) (s : State) : ∃ t, exec i s = .next t := by
  cases i with
  | prepare n r =>
    cases h : channelsOfCount n with
    | none => exact ⟨_, exec_prepare_none h r s⟩
    | some c => exact ⟨_, exec_prepare_some h r s⟩
  | readReg a =>
    cases h : regOfAddr a with
    | none => exact ⟨_, exec_readReg_none h s⟩
    | some r => exact ⟨_, exec_readReg_some h s⟩
  | nop | beginBlock | noteOn _ | noteOff _ | allSoundOff | tick | writeParam _ _ => exact ⟨_, rfl⟩

/-! ### The steps of TICK and NOTE_ON -/

/-- A glide step leaves everything but the frequency, the increment and the count alone, and takes one from a count above 0
(43_render_tick R191). -/
theorem glideStep_cases (sr : F) (v : Voice) :
    v.glideRem = 0#32 ∧ glideStep sr v = v ∨
      v.glideRem ≠ 0#32 ∧ ∃ f, glideStep sr v = { v with curFreq := f, glideRem := v.glideRem - 1#32, phaseDelta := deltaOf f sr } := by
  unfold glideStep
  by_cases h : v.glideRem = 0#32
  · left; simp [h]
  · right
    have : 0#32 < v.glideRem := by
      rw [BitVec.lt_def]; have : v.glideRem.toNat ≠ 0 := fun h' => h (BitVec.eq_of_toNat_eq (by simpa using h')); simp; omega
    rw [if_pos this]
    exact ⟨h, _, rfl⟩

/-- A NOTE_ON glides, writing the target and the count alone, or snaps (42_voice_control R172, R174). -/
theorem voiceNoteOn_cases (p : Params) (sr tgt : F) (v : Voice) :
    0#32 < noteGlide p sr v ∧ voiceNoteOn p sr tgt v = { v with tgtFreq := tgt, glideRem := noteGlide p sr v } ∨
      noteGlide p sr v = 0#32 ∧
        voiceNoteOn p sr tgt v = { v with tgtFreq := tgt, curFreq := tgt, glideRem := 0#32, phaseDelta := deltaOf tgt sr } := by
  unfold voiceNoteOn snap
  by_cases h : 0#32 < noteGlide p sr v
  · left; simp [h]
  · right
    have h0 : noteGlide p sr v = 0#32 := by
      apply BitVec.eq_of_toNat_eq; rw [BitVec.lt_def] at h; simp at h ⊢; omega
    simp [h0]

/-! ### Steps -/

/-- The three ways a step answers: nothing pending, a decoded command executed, a malformed command's fault recorded (20_memory R76,
30_encoding R98). -/
theorem step_cases {s u : State} (h : step s = .next u) :
    takeTransaction s = none ∧ u = s ∨
      (∃ t s' i, takeTransaction s = some (t, s') ∧ decode t = .ok i ∧ exec i s' = .next u) ∨
      ∃ t s' c, takeTransaction s = some (t, s') ∧ decode t = .error c ∧ u = raiseFault c s' := by
  unfold step at h
  split at h
  · next h0 => exact .inl ⟨h0, by injection h with h; exact h.symm⟩
  · next t s' h0 =>
    split at h
    · next i hi => exact .inr (.inl ⟨t, s', i, h0, hi, h⟩)
    · next c hc => exact .inr (.inr ⟨t, s', c, h0, hc, by injection h with h; exact h.symm⟩)

/-- A property that does not look at the queues, and that every command and every fault record keeps, is kept by every step. -/
theorem step_keeps {P : State → Prop} (hq : ∀ s a c n, P s → P { s with audio := a, control := c, arbTurn := n })
    (he : ∀ i s u, P s → exec i s = .next u → P u) (hf : ∀ c s, P s → P (raiseFault c s)) {s u : State} (h : step s = .next u)
    (hp : P s) : P u := by
  rcases step_cases h with ⟨-, rfl⟩ | ⟨t, s', i, h0, -, h⟩ | ⟨t, s', c, h0, -, rfl⟩
  · exact hp
  · have := hq s s'.audio s'.control s'.arbTurn hp
    rw [← (takeTransaction_cases h0).2] at this
    exact he i s' u this h
  · have := hq s s'.audio s'.control s'.arbTurn hp
    rw [← (takeTransaction_cases h0).2] at this
    exact hf c s' this

end Sys2Proof.Machine
end

