-- ==== Sys2Proof/Laws/PerInstr.lean ====
section
/-!
SUPPORT. Statements made per instruction. `RowMatch`: the words of a well-formed instruction carry its row's match word under the row's
mask (30_encoding R94), which is written from the opcode table and not from the encoder.
-/

namespace Sys2Proof.Laws

/-- A property of a word below a bound holds if it holds of each number below the bound. -/
theorem forall_word_below {P : Word → Prop} {b : Nat} (hb : b < 2 ^ 32) (h : ∀ k, k < b → P (BitVec.ofNat 32 k)) (n : Word)
    (hn : n < BitVec.ofNat 32 b) : P n := by
  have hlt : n.toNat < b := by
    have := BitVec.lt_def.1 hn
    rwa [BitVec.toNat_ofNat, Nat.mod_eq_of_lt hb] at this
  have := h n.toNat hlt
  rwa [BitVec.ofNat_toNat, BitVec.setWidth_eq] at this

end Sys2Proof.Laws

namespace Sys2Proof.Laws.RowMatch

/-- The encoded command word of a well-formed instruction matches its row of the opcode table. -/
def Statement (i : Instr) : Prop :=
  i.wellFormed = true → (encode i).cmd &&& Machine.rowMask i.opcode = Machine.rowMatch i.opcode

theorem nop : Statement .nop := by
  intro _; decide

theorem prepare (nchf srw : Word) : Statement (.prepare nchf srw) := by
  intro h
  refine forall_word_below (b := 4) (by decide)
    (P := fun n => ((Opcode.prepare.code.setWidth 32 <<< 28) ||| n) &&& Machine.rowMask .prepare = Machine.rowMatch .prepare) ?_ nchf ?_
  · decide +kernel
  · simpa [Instr.wellFormed] using h

theorem beginBlock : Statement .beginBlock := by
  intro _; decide

theorem noteOn (note : Word) : Statement (.noteOn note) := by
  intro h
  refine forall_word_below (b := 128) (by decide)
    (P := fun n => (encode (.noteOn n)).cmd &&& Machine.rowMask .noteOn = Machine.rowMatch .noteOn) ?_ note ?_
  · decide +kernel
  · simpa [Instr.wellFormed] using h

theorem noteOff (note : Word) : Statement (.noteOff note) := by
  intro h
  refine forall_word_below (b := 128) (by decide)
    (P := fun n => (encode (.noteOff n)).cmd &&& Machine.rowMask .noteOff = Machine.rowMatch .noteOff) ?_ note ?_
  · decide +kernel
  · simpa [Instr.wellFormed] using h

theorem allSoundOff : Statement .allSoundOff := by
  intro _; decide

theorem tick : Statement .tick := by
  intro _; decide

theorem writeParam (idx valw : Word) : Statement (.writeParam idx valw) := by
  intro h
  refine forall_word_below (b := 16) (by decide)
    (P := fun n => ((Opcode.writeParam.code.setWidth 32 <<< 28) ||| n) &&& Machine.rowMask .writeParam = Machine.rowMatch .writeParam) ?_ idx ?_
  · decide +kernel
  · simpa [Instr.wellFormed] using h

theorem readReg (addr : Word) : Statement (.readReg addr) := by
  intro h
  refine forall_word_below (b := 256) (by decide)
    (P := fun n => (encode (.readReg n)).cmd &&& Machine.rowMask .readReg = Machine.rowMatch .readReg) ?_ addr ?_
  · decide +kernel
  · simpa [Instr.wellFormed] using h

end Sys2Proof.Laws.RowMatch
end

