-- ==== Sys2Proof/Machine/Assembler.lean ====
section
/-!
DEFINITION. The assembler syntax of the command set (30_encoding R101) and of its pseudo-instructions (R102), from one line of text to
transactions. The block never runs it: it is the spec's written form of commands. Log 14 says what it reads as a number.
-/

namespace Sys2Proof.Machine

/-- A character in lower case. R101 makes mnemonics and register names case-insensitive; that the model reads everything else on a line so
too is its own choice (DESIGN CHOICE, log 14). -/
def lowerChar (c : Char) : Char :=
  if 'A'.toNat ≤ c.toNat && c.toNat ≤ 'Z'.toNat then Char.ofNat (c.toNat + 32) else c

/-- Space, tab and carriage return separate words. -/
def isBlank (c : Char) : Bool := c.toNat == 32 || c.toNat == 9 || c.toNat == 13

/-- A text without blanks at either end. -/
def trimBlank (cs : List Char) : List Char :=
  ((cs.dropWhile isBlank).reverse.dropWhile isBlank).reverse

/-- The parts of a text between commas. -/
def splitCommas : List Char → List (List Char)
  | []      => [[]]
  | c :: cs =>
    match splitCommas cs with
    | []      => [[c]]
    | p :: ps => if c = ',' then [] :: p :: ps else (c :: p) :: ps

/-- A digit's value: decimal digits and, above 9, the letters a to f. -/
def digitOf (c : Char) : Option Nat :=
  if '0'.toNat ≤ c.toNat && c.toNat ≤ '9'.toNat then some (c.toNat - '0'.toNat)
  else if 'a'.toNat ≤ c.toNat && c.toNat ≤ 'f'.toNat then some (c.toNat - 'a'.toNat + 10)
  else none

/-- The number a text of digits below `base` writes, continuing from `acc`. -/
def digitsFrom (base acc : Nat) : List Char → Option Nat
  | []      => some acc
  | c :: cs =>
    match digitOf c with
    | some d => if d < base then digitsFrom base (acc * base + d) cs else none
    | none   => none

/-- An unsigned integer: decimal digits, or `0x` and hex digits. -/
def natLit : List Char → Option Nat
  | [] => none
  | '0' :: 'x' :: c :: cs => digitsFrom 16 0 (c :: cs)
  | c :: cs => digitsFrom 10 0 (c :: cs)

/-- A signed exponent: an optional sign and decimal digits. -/
def expLit : List Char → Option Int
  | [] => none
  | '+' :: c :: cs => (digitsFrom 10 0 (c :: cs)).map Int.ofNat
  | '-' :: c :: cs => (digitsFrom 10 0 (c :: cs)).map fun n => -(n : Int)
  | c :: cs => (digitsFrom 10 0 (c :: cs)).map Int.ofNat

/-- The binary32 value nearest to `± m · 10^e`, ties to even (R101). -/
def decimalF (neg : Bool) (m : Nat) (e : Int) : F :=
  roundF neg (m * 10 ^ e.toNat * 2 ^ 149) (10 ^ (-e).toNat)

/-- An unsigned decimal number: digits, optionally a point and digits, optionally `e` and an exponent. -/
def decimalLit (neg : Bool) (cs : List Char) : Option F :=
  let mant := cs.takeWhile (· ≠ 'e')
  let rest := cs.drop mant.length
  let whole := mant.takeWhile (· ≠ '.')
  let frac := (mant.drop whole.length).drop 1
  let expo : Option Int := match rest with
    | []      => some 0
    | _ :: ds => expLit ds
  if whole ++ frac = [] then none
  else
    match digitsFrom 10 0 (whole ++ frac), expo with
    | some m, some e => some (decimalF neg m (e - (frac.length : Int)))
    | _, _           => none

/-- A float literal (R101): `nan`, `inf`, `-inf`, `0x` and 8 hex digits as a raw bit pattern, or a decimal number. -/
def floatLit (cs : List Char) : Option F :=
  if cs = "nan".toList then some 0x7FC00000#32
  else if cs = "inf".toList then some 0x7F800000#32
  else if cs = "-inf".toList then some 0xFF800000#32
  else
    match cs with
    | '0' :: 'x' :: ds => if ds.length = 8 then (digitsFrom 16 0 ds).map (BitVec.ofNat 32) else none
    | '-' :: ds        => decimalLit true ds
    | '+' :: ds        => decimalLit false ds
    | ds               => decimalLit false ds

/-- The parameter names (10_state R33), in lower case. -/
def paramNames : List (List Char × Param) :=
  [("gain".toList, .gain), ("attack".toList, .attack), ("decay".toList, .decay), ("sustain".toList, .sustain),
   ("release".toList, .release), ("pitchsemitones".toList, .pitchSemitones), ("glidetime".toList, .glideTime),
   ("drive".toList, .drive), ("color".toList, .color), ("tonecutoff".toList, .toneCutoff)]

/-- The index of a parameter (R33). -/
def indexOfParam : Param → Nat
  | .gain => 0 | .attack => 1 | .decay => 2 | .sustain => 3 | .release => 4
  | .pitchSemitones => 5 | .glideTime => 6 | .drive => 7 | .color => 8 | .toneCutoff => 9

/-- The register names other than cells and their addresses (R101), in lower case. -/
def regNames : List (List Char × Nat) :=
  [("sr".toList, 0x20), ("nch".toList, 0x21), ("status".toList, 0x22), ("phase".toList, 0x30), ("phase_delta".toList, 0x31),
   ("cur_freq".toList, 0x32), ("tgt_freq".toList, 0x33), ("glide_rem".toList, 0x34), ("tone_z0".toList, 0x35),
   ("tone_z1".toList, 0x36), ("env_stage".toList, 0x40), ("env_level".toList, 0x41), ("env_rel_start".toList, 0x42)]

/-- A parameter operand: a name, or an index. -/
def paramLit (cs : List Char) : Option Nat :=
  match paramNames.lookup cs with
  | some p => some (indexOfParam p)
  | none   => natLit cs

/-- A register operand (R101): `PCELL0`–`PCELL9` or a parameter name, `PSNAP0`–`PSNAP9`, a register name, or an address. -/
def regLit (cs : List Char) : Option Nat :=
  match paramNames.lookup cs, regNames.lookup cs with
  | some p, _    => some (indexOfParam p)
  | none, some a => some a
  | none, none   =>
    match cs with
    | ['p', 'c', 'e', 'l', 'l', d] => digitsFrom 10 0 [d]
    | ['p', 's', 'n', 'a', 'p', d] => (digitsFrom 10 0 [d]).map (0x10 + ·)
    | _                            => natLit cs

/-- The instruction of a mnemonic and its operands, all in lower case; `none` is an assembly error. -/
def parseCommand (mnemonic : List Char) (ops : List (List Char)) : Option Instr :=
  if mnemonic = "nop".toList then (if ops = [] then some .nop else none)
  else if mnemonic = "begin_block".toList then (if ops = [] then some .beginBlock else none)
  else if mnemonic = "all_sound_off".toList then (if ops = [] then some .allSoundOff else none)
  else if mnemonic = "tick".toList then (if ops = [] then some .tick else none)
  else if mnemonic = "prepare".toList then
    match ops with
    | [n, r] => match natLit n, floatLit r with
      | some n, some r => if n < 4 then some (.prepare (BitVec.ofNat 32 n) r) else none
      | _, _           => none
    | _ => none
  else if mnemonic = "note_on".toList then
    match ops with
    | [n] => (natLit n).bind fun n => if n < 128 then some (.noteOn (BitVec.ofNat 32 n)) else none
    | _   => none
  else if mnemonic = "note_off".toList then
    match ops with
    | []  => some (.noteOff 0#32)
    | [n] => (natLit n).bind fun n => if n < 128 then some (.noteOff (BitVec.ofNat 32 n)) else none
    | _   => none
  else if mnemonic = "write_param".toList then
    match ops with
    | [p, v] => match paramLit p, floatLit v with
      | some p, some v => if p < 16 then some (.writeParam (BitVec.ofNat 32 p) v) else none
      | _, _           => none
    | _ => none
  else if mnemonic = "read_reg".toList then
    match ops with
    | [a] => (regLit a).bind fun a => if a < 256 then some (.readReg (BitVec.ofNat 32 a)) else none
    | _   => none
  else none

/-- The mnemonic of a line without blanks at its ends, and its operands. -/
def splitLine (body : List Char) : List Char × List (List Char) :=
  let mnemonic := body.takeWhile (fun c => !isBlank c)
  let rest := trimBlank (body.drop mnemonic.length)
  (mnemonic, if rest = [] then [] else (splitCommas rest).map trimBlank)

/-- The parts of a text between semicolons. -/
def splitSemicolons : List Char → List (List Char)
  | []      => [[]]
  | c :: cs =>
    match splitSemicolons cs with
    | []      => [[c]]
    | p :: ps => if c = ';' then [] :: p :: ps else (c :: p) :: ps

/-- A note event of a BLOCK line (R102). -/
def eventLit (cs : List Char) : Option NoteEvent :=
  let l := splitLine (trimBlank cs)
  match parseCommand l.1 l.2 with
  | some (.noteOn n)   => some (.noteOn n)
  | some (.noteOff n)  => some (.noteOff n)
  | some .allSoundOff  => some .allSoundOff
  | _                  => none

/-- The pseudo-instruction of a mnemonic and its operands (R102), all in lower case, but for BLOCK. -/
def parsePseudo (mnemonic : List Char) (ops : List (List Char)) : Option Pseudo :=
  if mnemonic = "set_defaults".toList then (if ops = [] then some .setDefaults else none)
  else if mnemonic = "render".toList then
    match ops with
    | [n] => (natLit n).map Pseudo.render
    | _   => none
  else if mnemonic = "load_preset".toList then
    match ops.mapM floatLit with
    | some [v0, v1, v2, v3, v4, v5, v6, v7, v8, v9] =>
      some (.loadPreset { gain := v0, attack := v1, decay := v2, sustain := v3, release := v4, pitchSemitones := v5
                          glideTime := v6, drive := v7, color := v8, toneCutoff := v9 })
    | _ => none
  else none

/-- A BLOCK line after its mnemonic (R102): a count, a colon, and events between semicolons. No comment can stand on it (log 14). -/
def parseBlock (cs : List Char) : Option Pseudo :=
  let count := cs.takeWhile (· ≠ ':')
  let events := trimBlank ((cs.drop count.length).drop 1)
  match natLit (trimBlank count), (if events = [] then some [] else (splitSemicolons events).mapM eventLit) with
  | some n, some es => if count.length < cs.length then some (.block n es) else none
  | _, _            => none

/-- One line of assembler text (R101, R102): `none` is an assembly error, no transaction for a line of blanks or a comment. The whole
line is read in lower case. R101 says so of mnemonics and register names only; DESIGN CHOICE (log 14): the same holds of parameter
names, of the pseudo-instructions' names, of `nan`, `inf` and `-inf`, of the prefix `0x`, of hex digits and of the exponent's `e`. -/
def assembleLine (line : List Char) : Option (List Transaction) :=
  let whole := trimBlank (line.map lowerChar)
  if (whole.takeWhile (fun c => !isBlank c)) = "block".toList then
    (parseBlock (whole.drop 5)).map fun p => p.expand.map encode
  else
    let body := trimBlank (whole.takeWhile (· ≠ ';'))
    if body = [] then some []
    else
      let l := splitLine body
      match parsePseudo l.1 l.2 with
      | some p => some (p.expand.map encode)
      | none   => (parseCommand l.1 l.2).map fun i => [encode i]

end Sys2Proof.Machine
end

