-- ==== Sys2Proof/Tests/Slice0.lean ====
section
/-!
SUPPORT. Tests of the model against the spec's own worked values (95_test_vectors; the id of a vector stands before its test), and for
every obligation with hypotheses a witness that meets them all.
-/

namespace Sys2Proof.Tests

-- one proof at a time: a hundred kernel evaluations side by side would each hold a thread's stack
set_option Elab.async false

open Sys2Proof.Machine

/-! ### Small states and a choice of function units -/

/-- Power-on, then a sample rate and a channel count. -/
def rated (sr : F) (nch : Channels) : State := { State.reset with sr := sr, nch := nch }

/-- 44100 Hz, mono: the start of the vectors of 95_test_vectors section 2. -/
def on1 : State := rated 0x472C4400#32 .mono

/-- 44100 Hz, stereo. -/
def on2 : State := rated 0x472C4400#32 .stereo

/-- A state whose envelope stands at a stage, level and release start. -/
def atEnv (stage : Stage) (level relStart : F) (s : State) : State :=
  { s with env := { stage := stage, level := level, relStart := relStart } }

/-- A state whose voice stands at two frequencies and a glide count. -/
def atFreq (cur tgt : F) (rem : Word) (s : State) : State :=
  { s with voice := { s.voice with curFreq := cur, tgtFreq := tgt, glideRem := rem } }

/-- A state with one transaction pending on the AUDIO agent. -/
def pend (cmd data : Word) (s : State) : State := { s with audio := [⟨cmd, data⟩] }

/-- The state after one command. -/
def after (i : Instr) (s : State) : Option State :=
  match exec i s with
  | .next t    => some t
  | .fault _   => none
  | .refused _ => none

/-- The state after one step. -/
def stepped (s : State) : Option State :=
  match step s with
  | .next t    => some t
  | .fault _   => none
  | .refused _ => none

/-- TANH and EXP at the arguments of the drive and alpha vectors, correctly rounded (95_test_vectors, decision D2), and 0 elsewhere. -/
def vectorUnits : MathUnits :=
  { sin := fun _ => fZero
    tanh := fun x =>
      if x = 0x3E000000#32 then 0x3DFEACC9#32 else if x = 0x3E800000#32 then 0x3E7ACBF5#32
      else if x = 0x3F200000#32 then 0x3F0DFA3F#32 else if x = 0x3FA00000#32 then 0x3F59291E#32
      else if x = 0x40200000#32 then 0x3F7C92C1#32 else fZero
    exp := fun x =>
      if x = 0xBD2F1308#32 then 0x3F7549D5#32 else if x = 0xBF91E531#32 then 0x3EA3C76A#32 else fOne
    exp2 := conformExp2 fun _ => fZero }

/-- Function units with every property of 00_scope R17. -/
def plainUnits : MathUnits :=
  { sin := fun _ => fZero, tanh := id, exp := fun _ => fOne, exp2 := conformExp2 fun _ => fZero }

theorem plainUnits_conforming : plainUnits.Conforming where
  sin_zero := rfl
  sin_range := fun _ _ => by show fle (fneg fOne) fZero = true ∧ fle fZero fOne = true; decide +kernel
  tanh_zero := rfl
  tanh_odd := fun _ _ => rfl
  tanh_pos := fun _ h => h
  exp_range := fun _ _ => by show fle fZero fOne = true; decide +kernel
  exp_zero := rfl
  exp2_exact := fun x k h => by simp [plainUnits, conformExp2, h]

/-! ### Well-formedness refuses an operand wider than its field (R92) -/

theorem test_wellFormed_prepare : (Instr.prepare 4#32 0#32).wellFormed = false := by decide
theorem test_wellFormed_noteOn : (Instr.noteOn 128#32).wellFormed = false := by decide
theorem test_wellFormed_noteOff : (Instr.noteOff 128#32).wellFormed = false := by decide
theorem test_wellFormed_writeParam : (Instr.writeParam 16#32 0#32).wellFormed = false := by decide
theorem test_wellFormed_readReg : (Instr.readReg 256#32).wellFormed = false := by decide

/-! ### Decoding words written out from the encoding table (R92, R94) -/

theorem test_decode_nop : decode ⟨0b00000000000000000000000000000000#32, 0#32⟩ = .ok .nop := by decide
theorem test_decode_prepare :
    decode ⟨0b00010000000000000000000000000001#32, 0x472C4400#32⟩ = .ok (.prepare 1#32 0x472C4400#32) := by decide
theorem test_decode_beginBlock : decode ⟨0b00100000000000000000000000000000#32, 0xFFFFFFFF#32⟩ = .ok .beginBlock := by decide
theorem test_decode_noteOn : decode ⟨0b00110000000000000000000001000101#32, 0#32⟩ = .ok (.noteOn 69#32) := by decide
theorem test_decode_noteOff : decode ⟨0b01000000000000000000000001111111#32, 0#32⟩ = .ok (.noteOff 127#32) := by decide
theorem test_decode_allSoundOff : decode ⟨0b01010000000000000000000000000000#32, 0#32⟩ = .ok .allSoundOff := by decide
theorem test_decode_tick : decode ⟨0b01100000000000000000000000000000#32, 0#32⟩ = .ok .tick := by decide
theorem test_decode_writeParam :
    decode ⟨0b01110000000000000000000000001001#32, 0x461C4000#32⟩ = .ok (.writeParam 9#32 0x461C4000#32) := by decide
theorem test_decode_readReg : decode ⟨0b10000000000000000000000001000010#32, 0#32⟩ = .ok (.readReg 0x42#32) := by decide

/-- D-1, D-2: the reserved opcodes. -/
theorem test_decode_reserved :
    decode ⟨0x90000000#32, 0#32⟩ = .error .illegalOpcode ∧ decode ⟨0xF0000000#32, 0#32⟩ = .error .illegalOpcode := by decide

/-- D-3, D-4, D-11, F6, A3, W14: a must-be-zero bit set, the lowest of each format. -/
theorem test_decode_mbz :
    decode ⟨0x00000001#32, 0#32⟩ = .error .mbzNonzero ∧ decode ⟨0x10000007#32, 0x472C4400#32⟩ = .error .mbzNonzero ∧
    decode ⟨0x20000001#32, 0#32⟩ = .error .mbzNonzero ∧ decode ⟨0x300000C5#32, 0#32⟩ = .error .mbzNonzero ∧
    decode ⟨0x40000080#32, 0#32⟩ = .error .mbzNonzero ∧ decode ⟨0x50000001#32, 0#32⟩ = .error .mbzNonzero ∧
    decode ⟨0x60000001#32, 0#32⟩ = .error .mbzNonzero ∧ decode ⟨0x70000010#32, 0x3F000000#32⟩ = .error .mbzNonzero ∧
    decode ⟨0x80000100#32, 0#32⟩ = .error .mbzNonzero := by decide

/-- R103: the words of the encoding examples, and two operands at the top of their fields. -/
theorem test_encode :
    encode (.noteOn 69#32) = ⟨0x30000045#32, 0#32⟩ ∧
    encode (.prepare 2#32 0x472C4400#32) = ⟨0x10000002#32, 0x472C4400#32⟩ ∧
    encode (.writeParam 15#32 0x44020000#32) = ⟨0x7000000F#32, 0x44020000#32⟩ ∧
    encode (.readReg 0xFF#32) = ⟨0x800000FF#32, 0#32⟩ := by decide

/-- R73: `PREPARE 1, 44100.0` as bytes, each word's least significant byte first. -/
theorem test_decodeBytes :
    decodeBytes [0x01#8, 0x00#8, 0x00#8, 0x10#8, 0x00#8, 0x44#8, 0x2C#8, 0x47#8, 0xAA#8] =
      some (.ok (.prepare 1#32 0x472C4400#32), [0xAA#8]) := by decide

/-- R101, R102, R129: lines of text; a note written as 128 and an index written as 16 are assembly errors; the preset "Punch 808". -/
theorem test_assembleLine :
    assembleLine "PREPARE 1, 44100.0 ; mono".toList = some [⟨0x10000001#32, 0x472C4400#32⟩] ∧
    assembleLine "write_param toneCutoff, 10000".toList = some [⟨0x70000009#32, 0x461C4000#32⟩] ∧
    assembleLine "READ_REG PSNAP9".toList = some [⟨0x80000019#32, 0#32⟩] ∧
    assembleLine "NOTE_ON 128".toList = none ∧ assembleLine "WRITE_PARAM 16, 0".toList = none ∧
    assembleLine "RENDER 2 ; two samples".toList = some [⟨0x60000000#32, 0#32⟩, ⟨0x60000000#32, 0#32⟩] ∧
    assembleLine "BLOCK 1: NOTE_OFF; NOTE_ON 69".toList =
      some [⟨0x20000000#32, 0#32⟩, ⟨0x40000000#32, 0#32⟩, ⟨0x30000045#32, 0#32⟩, ⟨0x60000000#32, 0#32⟩] ∧
    (assembleLine "LOAD_PRESET 0.90, 0.00, 0.10, 0.50, 0.18, 0, 0.01, 0.50, 0.40, 520".toList).map (·.map Transaction.data) =
      some [0x3F666666#32, 0#32, 0x3DCCCCCD#32, 0x3F000000#32, 0x3E3851EC#32, 0#32, 0x3C23D70A#32, 0x3F000000#32, 0x3ECCCCCD#32,
        0x44020000#32] := by decide +kernel

/-- R71, R72: the register map, one address of each group and the addresses on either side of each hole. -/
theorem test_regOfAddr :
    regOfAddr 0x09#32 = some (.pcell .toneCutoff) ∧ regOfAddr 0x0A#32 = none ∧ regOfAddr 0x0F#32 = none ∧
    regOfAddr 0x10#32 = some (.psnap .gain) ∧ regOfAddr 0x19#32 = some (.psnap .toneCutoff) ∧ regOfAddr 0x1A#32 = none ∧
    regOfAddr 0x1F#32 = none ∧ regOfAddr 0x20#32 = some .sr ∧ regOfAddr 0x22#32 = some .status ∧ regOfAddr 0x23#32 = none ∧
    regOfAddr 0x2F#32 = none ∧ regOfAddr 0x30#32 = some .phase ∧ regOfAddr 0x36#32 = some .toneZ1 ∧ regOfAddr 0x37#32 = none ∧
    regOfAddr 0x3F#32 = none ∧ regOfAddr 0x40#32 = some .envStage ∧ regOfAddr 0x42#32 = some .envRelStart ∧
    regOfAddr 0x43#32 = none ∧ regOfAddr 0xFF#32 = none := by decide

/-! ### One step of a decoded word, as the first instruction after reset -/

theorem test_withFetchWord :
    decodeTableWord 32 0x30000045 = some (.noteOn 69#32) ∧ decodeTableWord 32 0x90000000 = none ∧
    takeTransaction (State.reset.withFetchWord 32 0x30000045) = some (⟨0x30000045#32, 0#32⟩, State.reset) := by decide

/-- D-1, D-3, D-5, D-6: STATUS after one faulting command from power-on. -/
theorem test_step_faults :
    (stepped (pend 0x90000000#32 0#32 State.reset)).map statusWord = some 0x12#32 ∧
    (stepped (pend 0x00000001#32 0#32 State.reset)).map statusWord = some 0x22#32 ∧
    (stepped (pend 0x10000003#32 0x472C4400#32 State.reset)).map statusWord = some 0x32#32 ∧
    (stepped (pend 0x80000023#32 0#32 State.reset)).map statusWord = some 0x42#32 := by decide +kernel

/-- D-8, D-9: the first cause is kept by a second fault and by PREPARE. -/
theorem test_step_fault_is_kept :
    (stepped (pend 0x80000023#32 0#32 { State.reset with fault := true, faultCause := 1#4 })).map statusWord = some 0x12#32 ∧
    (stepped (pend 0x10000001#32 0x472C4400#32 { State.reset with fault := true, faultCause := 1#4 })).map statusWord =
      some 0x13#32 := by decide +kernel

/-! ### One command -/

/-- D-10: NOP answers 0 and no frame. -/
theorem test_nop : (after .nop on1).map (·.rsp) = some (some { rdata := 0#32, frame := none }) := by decide +kernel

/-- The READ_REG table of 2.11, at power-on. -/
theorem test_readReg :
    (after (.readReg 0x00#32) State.reset).map (·.rsp) = some (some { rdata := 0x3E800000#32, frame := none }) ∧
    (after (.readReg 0x19#32) State.reset).map (·.rsp) = some (some { rdata := 0x43960000#32, frame := none }) ∧
    (after (.readReg 0x21#32) State.reset).map (·.rsp) = some (some { rdata := 2#32, frame := none }) ∧
    (after (.readReg 0x40#32) (atEnv .release fOne fOne on1)).map (·.rsp) = some (some { rdata := 4#32, frame := none }) := by
  decide +kernel

/-- W1, W5, W7, W8, W10: clamped above, −0.0, clamped below, +inf, a subnormal kept. -/
theorem test_writeParam_conditions :
    (after (.writeParam 0#32 0x3FC00000#32) on1).map (·.pcell.gain) = some 0x3F800000#32 ∧
    (after (.writeParam 8#32 0x80000000#32) on1).map (·.pcell.color) = some 0x00000000#32 ∧
    (after (.writeParam 5#32 0xC1A00000#32) on1).map (·.pcell.pitchSemitones) = some 0xC1400000#32 ∧
    (after (.writeParam 4#32 0x7F800000#32) on1).map (·.pcell.release) = some 0x40A00000#32 ∧
    (after (.writeParam 3#32 0x00000001#32) on1).map (·.pcell.sustain) = some 0x00000001#32 ∧
    (after (.writeParam 9#32 0x429FFAE1#32) on1).map (·.pcell.toneCutoff) = some 0x42A00000#32 := by decide +kernel

/-- W3, W4: an index past the set and a NaN change nothing and record no fault. -/
theorem test_writeParam_ignores :
    (after (.writeParam 12#32 0x3F000000#32) on1).map (fun t => (t.pcell, statusWord t)) = some (on1.pcell, 1#32) ∧
    (after (.writeParam 0#32 0x7FC00000#32) on1).map (fun t => (t.pcell, statusWord t)) = some (on1.pcell, 1#32) := by
  decide +kernel

/-- B1, B2: the snapshot sees a written cell only after BEGIN_BLOCK. -/
theorem test_beginBlock :
    (after (.writeParam 1#32 0x3B03126F#32) on1).map (·.psnap.attack) = some 0x3BA3D70A#32 ∧
    (after .beginBlock { on1 with pcell := { on1.pcell with attack := 0x3B03126F#32 } }).map (·.psnap.attack) = some 0x3B03126F#32 := by
  decide +kernel

/-- P-1, P-11: the rate and the count are stored, a sounding voice is reset, the cells are kept. -/
theorem test_prepare_resets :
    (after (.prepare 1#32 0x472C4400#32) (atFreq fA4 fA4 3#32 (atEnv .decay fOne fOne on2))).map
      (fun t => (t.sr, t.nch, t.voice, t.env, t.pcell)) = some (0x472C4400#32, .mono, Voice.zero, Env.zero, on2.pcell) := by
  decide +kernel

/-- P-3, P-6, P-7, P-9: a refused count, rates that are stored but not valid, and the smallest valid rate. -/
theorem test_prepare_rates :
    (after (.prepare 3#32 0x472C4400#32) State.reset).map (fun t => (t.sr, statusWord t)) = some (0#32, 0x32#32) ∧
    (after (.prepare 2#32 0x3F000000#32) State.reset).map (fun t => (t.sr, statusWord t)) = some (0x3F000000#32, 0#32) ∧
    (after (.prepare 2#32 0x7F800000#32) State.reset).map (fun t => (t.sr, statusWord t)) = some (0x7F800000#32, 0#32) ∧
    (after (.prepare 2#32 0x3F800000#32) State.reset).map (fun t => (t.sr, statusWord t)) = some (0x3F800000#32, 1#32) := by
  decide +kernel

/-- N1 and the note 69 row: 440 Hz for any function units, snapped, with its increment at 44100 Hz. -/
theorem test_noteOn_snaps :
    (after (.noteOn 69#32) on1).map
      (fun t => (t.voice.tgtFreq, t.voice.curFreq, t.voice.glideRem, t.voice.phaseDelta, t.env.stage)) =
      some (0x43DC0000#32, 0x43DC0000#32, 0#32, 0x3D80634A#32, .attack) := by decide +kernel

/-- N2, N5, N6, N7: the length of a glide. -/
theorem test_noteOn_glides :
    glideLen 0x38BE37C6#32 0x472C4400#32 = 4#32 ∧ glideLen 0x38D1B717#32 0x473B8000#32 = 5#32 ∧
    glideLen 0x3727C5AC#32 0x472C4400#32 = 0#32 ∧ glideLen 0x373E37C7#32 0x472C4400#32 = 1#32 ∧
    (after (.noteOn 69#32)
      (atFreq 0x42DC0000#32 0x42DC0000#32 0#32 { on1 with psnap := { on1.psnap with glideTime := 0x38BE37C6#32 } })).map
      (fun t => (t.voice.tgtFreq, t.voice.curFreq, t.voice.glideRem)) = some (0x43DC0000#32, 0x42DC0000#32, 4#32) := by decide +kernel

/-- F1, F3, F5: a release takes the level; in RELEASE and while disabled nothing happens. -/
theorem test_noteOff :
    (after (.noteOff 0#32) (atEnv .sustain fHalf 0#32 on1)).map (·.env) = some { stage := .release, level := fHalf, relStart := fHalf } ∧
    (after (.noteOff 0#32) (atEnv .release 0x3EC00000#32 fHalf on1)).map (·.env) =
      some { stage := .release, level := 0x3EC00000#32, relStart := fHalf } ∧
    (after (.noteOff 0#32) (atEnv .sustain fHalf 0#32 State.reset)).map (·.env) =
      some { stage := .sustain, level := fHalf, relStart := 0#32 } := by decide +kernel

/-- A1: the envelope is reset, the frequency kept. -/
theorem test_allSoundOff :
    (after .allSoundOff (atFreq fA4 fA4 0#32 (atEnv .attack fHalf fHalf on1))).map (fun t => (t.env, t.voice.curFreq)) =
      some (Env.zero, 0x43DC0000#32) := by decide +kernel

/-- The 1000 Hz table of 2.7: one attack, decay and release step, the step into each next stage, and the default attack step. -/
theorem test_tick_envelope :
    let p : Params := { Params.powerOn with attack := 0x3B03126F#32, decay := 0x3B83126F#32, sustain := fHalf, release := 0x3B83126F#32 }
    let s (stage : Stage) (level : F) : State := atEnv stage level fHalf { rated 0x447A0000#32 .mono with psnap := p }
    (after .tick (s .attack 0#32)).map (·.env) = some { stage := .attack, level := fHalf, relStart := fHalf } ∧
    (after .tick (s .attack fHalf)).map (·.env) = some { stage := .decay, level := fOne, relStart := fHalf } ∧
    (after .tick (s .decay fOne)).map (·.env) = some { stage := .decay, level := 0x3F600000#32, relStart := fHalf } ∧
    (after .tick (s .decay 0x3F200000#32)).map (·.env) = some { stage := .sustain, level := fHalf, relStart := fHalf } ∧
    (after .tick (s .release fHalf)).map (·.env) = some { stage := .release, level := 0x3EC00000#32, relStart := fHalf } ∧
    (after .tick (s .release 0x3E000000#32)).map (·.env) = some { stage := .idle, level := 0#32, relStart := fHalf } ∧
    (after .tick (atEnv .attack 0#32 0#32 on1)).map (·.env.level) = some 0x3B949B93#32 := by decide +kernel

/-- G1, G2 and 2.9: a glide step, a last step that misses by one bit, drive, color, phase, alpha and tone. -/
theorem test_tick_datapath :
    (after .tick (atFreq 0x42DC0000#32 0x435C0000#32 4#32 on1)).map (fun t => (t.voice.curFreq, t.voice.glideRem)) =
      some (0x43098000#32, 3#32) ∧
    (glideStep 0x472C4400#32 (atFreq 0x4102D012#32 0x4224D053#32 1#32 on1).voice).curFreq = 0x4224D052#32 ∧
    driveStage vectorUnits 0x3DCCCCCD#32 fHalf = 0x3F01FAB7#32 ∧ driveStage vectorUnits fOne fHalf = 0x3F5C1B5E#32 ∧
    colorStage fOne 0x3E4CCCCD#32 fHalf = 0x3F666666#32 ∧ colorStage 0xBF800000#32 0x3E4CCCCD#32 fHalf = 0x3DCCCCCC#32 ∧
    colorStage 0x3ECCCCCD#32 0x3E4CCCCD#32 fHalf = 0x3F28F5C3#32 ∧ colorStage 0xBF800000#32 0xBF800000#32 fOne = 0xBF000000#32 ∧
    phaseAdvance 0x40C66666#32 0x3DCCCCCD#32 = 0x3C89BE00#32 ∧ phaseAdvance 0x40B90FDB#32 fHalf = 0#32 ∧
    alphaOf vectorUnits 0x43960000#32 0x472C4400#32 = 0x3F7549D5#32 ∧
    alphaOf vectorUnits 0x45FA0000#32 0x472C4400#32 = 0x3EA3C76A#32 ∧
    toneFilter 0x3EA3C76A#32 0#32 fOne = 0x3F2E1C4B#32 ∧ toneFilter 0x3EA3C76A#32 0x3F2E1C4B#32 fOne = 0x3F65CE1D#32 := by
  decide +kernel

/-- R15, R16: rounding of integers to F, and a tie of the glide length going up. -/
theorem test_rounding :
    u2f 0xFFFFFFFF#32 = 0x4F800000#32 ∧ i2f (-57) = 0xC2640000#32 ∧ roundSatU32 0x3F000000#32 = 1#32 ∧
    roundSatU32 0x40200000#32 = 3#32 ∧ roundSatU32 0xBF800000#32 = 0#32 ∧ roundSatU32 0x7F800000#32 = 0xFFFFFFFF#32 := by
  decide +kernel

/-! ### Witnesses: each meets every hypothesis of the obligation named after it, clause by clause and at the ends of its ranges -/

theorem witness_DecodeOfEncodeIsTheInstruction :
    ([.nop, .prepare 3#32 0xFFFFFFFF#32, .beginBlock, .noteOn 127#32, .noteOff 127#32, .allSoundOff, .tick,
      .writeParam 15#32 0xFFFFFFFF#32, .readReg 255#32] : List Instr).all Instr.wellFormed = true := by decide

theorem witness_DecodedInstructionKeepsTheWords :
    decode ⟨0x10000003#32, 0x12345678#32⟩ = .ok (.prepare 3#32 0x12345678#32) ∧
    decode ⟨0x7000000F#32, 0x12345678#32⟩ = .ok (.writeParam 15#32 0x12345678#32) ∧
    decode ⟨0x800000FF#32, 0x12345678#32⟩ = .ok (.readReg 255#32) ∧ decode ⟨0x60000000#32, 0x12345678#32⟩ = .ok .tick := by decide

theorem witness_CommandWordEncodesExactlyItsRow :
    0x3000007F#32 &&& rowMask .noteOn = rowMatch .noteOn ∧ 0x1000003F#32 &&& rowMask .prepare ≠ rowMatch .prepare := by decide

theorem witness_ReservedOpcodeRecordsIllegalOpcode :
    takeTransaction (pend 0x90000000#32 0#32 on1) = some (⟨0x90000000#32, 0#32⟩, on1) ∧
    takeTransaction (pend 0xFFFFFFFF#32 0#32 on1) = some (⟨0xFFFFFFFF#32, 0#32⟩, on1) ∧
    0x9#4 ≤ (0x90000000#32).extractLsb' 28 4 ∧ 0x9#4 ≤ (0xFFFFFFFF#32).extractLsb' 28 4 := by decide

theorem witness_MbzBitRecordsMbzNonzero :
    takeTransaction (pend 0x30000080#32 0#32 on1) = some (⟨0x30000080#32, 0#32⟩, on1) ∧
    (0x30000080#32).extractLsb' 28 4 = (rowMatch .noteOn).extractLsb' 28 4 ∧
    0x30000080#32 &&& rowMask .noteOn &&& 0x0FFFFFFF#32 ≠ 0#32 ∧
    takeTransaction (pend 0x18000003#32 0#32 on1) = some (⟨0x18000003#32, 0#32⟩, on1) ∧
    (0x18000003#32).extractLsb' 28 4 = (rowMatch .prepare).extractLsb' 28 4 ∧
    0x18000003#32 &&& rowMask .prepare &&& 0x0FFFFFFF#32 ≠ 0#32 := by decide

theorem witness_UnusedDataWordHasNoEffect :
    (0x60000000#32).extractLsb' 28 4 ≠ 0x1#4 ∧ (0x60000000#32).extractLsb' 28 4 ≠ 0x7#4 ∧
    (0x800000FF#32).extractLsb' 28 4 ≠ 0x1#4 ∧ (0x800000FF#32).extractLsb' 28 4 ≠ 0x7#4 := by decide

theorem witness_LoadPresetConditionsEveryCell : ∀ p, isNaN (getParam defaultParams p) = false := by
  intro p; cases p <;> decide

theorem witness_StepRunsTheDecodedInstruction :
    takeTransaction (pend 0x30000045#32 0#32 on1) = some (⟨0x30000045#32, 0#32⟩, on1) ∧
    decode ⟨0x30000045#32, 0#32⟩ = .ok (.noteOn 69#32) := by decide

theorem witness_StepKeepsAllStateWhileNoCommandArrives : State.reset.audio = [] ∧ State.reset.control = [] := by decide

theorem witness_ArbiterKeepsEachAgentsOrder :
    ¬((pend 0#32 0#32 on1).audio = [] ∧ (pend 0#32 0#32 on1).control = []) := by decide

/-- A state with a fault recorded and a second fault pending. -/
theorem witness_FaultRecordIsSticky :
    ∃ t, step (pend 0x90000000#32 0#32 { on1 with fault := true, faultCause := 4#4 }) = .next t ∧
      (pend 0x90000000#32 0#32 { on1 with fault := true, faultCause := 4#4 }).fault = true := ⟨_, rfl, rfl⟩

theorem witness_StepKeepsTheFaultRecordLegal :
    FaultRecordOk (pend 0x90000000#32 0#32 on1) ∧ ∃ t, step (pend 0x90000000#32 0#32 on1) = .next t :=
  ⟨⟨fun _ => rfl, fun h => by simp [pend, on1, rated, State.reset] at h⟩, _, rfl⟩

theorem witness_BadChannelCountChangesOnlyTheRecord :
    (0#32 ≠ 1#32 ∧ 0#32 ≠ 2#32) ∧ (3#32 ≠ 1#32 ∧ 3#32 ≠ 2#32) := by decide

/-- Both ends of each range of unmapped addresses. -/
theorem witness_UnmappedAddressRecordsBadRegAddress :
    ([0x0A#32, 0x0F#32, 0x1A#32, 0x1F#32, 0x23#32, 0x2F#32, 0x37#32, 0x3F#32, 0x43#32, 0xFF#32] : List Word).all (fun a =>
      (0x0A#32 ≤ a && a ≤ 0x0F#32) || (0x1A#32 ≤ a && a ≤ 0x1F#32) || (0x23#32 ≤ a && a ≤ 0x2F#32) ||
        (0x37#32 ≤ a && a ≤ 0x3F#32) || (0x43#32 ≤ a && a ≤ 0xFF#32)) = true := by decide

/-- Members of the register table of ReadRegReturnsTheMappedRegister, at the ends of its three parts, with their registers. -/
theorem witness_ReadRegReturnsTheMappedRegister :
    exec (.readReg 0x00#32) on1 = .next { on1 with rsp := some { rdata := 0x3E800000#32, frame := none } } ∧
    exec (.readReg 0x19#32) on1 = .next { on1 with rsp := some { rdata := 0x43960000#32, frame := none } } ∧
    exec (.readReg 0x20#32) on1 = .next { on1 with rsp := some { rdata := 0x472C4400#32, frame := none } } ∧
    exec (.readReg 0x42#32) on1 = .next { on1 with rsp := some { rdata := 0#32, frame := none } } :=
  ⟨rfl, rfl, rfl, rfl⟩

/-- Each clause of the conditioning, at the first and the last index: below, above, −0.0 and in range. -/
theorem witness_WriteParamStoresTheConditionedValue :
    paramOfIndex 0#32 = some .gain ∧ paramOfIndex 9#32 = some .toneCutoff ∧
    (isNaN 0xBF800000#32 = false ∧ flt 0xBF800000#32 (paramLo .gain) = true) ∧
    (isNaN 0x7F800000#32 = false ∧ flt (paramHi .toneCutoff) 0x7F800000#32 = true) ∧
    (isNaN 0x80000000#32 = false ∧ flt 0x80000000#32 (paramLo .gain) = false) ∧
    (isNaN 0x3F800000#32 = false ∧ flt (paramHi .gain) 0x3F800000#32 = false) := by decide +kernel

theorem witness_WriteParamOutsideTheSetDoesNothing :
    10 ≤ (10#32).toNat ∧ 10 ≤ (15#32).toNat ∧ isNaN 0x7F800001#32 = true ∧ isNaN 0xFFFFFFFF#32 = true := by decide

theorem witness_DatapathReadsOnlyTheSnapshot :
    ∀ i ∈ ([.nop, .prepare 1#32 0x472C4400#32, .noteOn 69#32, .noteOff 0#32, .allSoundOff, .tick] : List Instr),
      i.opcode ≠ .beginBlock ∧ i.opcode ≠ .readReg ∧ i.opcode ≠ .writeParam ∧ ∃ t, exec i on1 = .next t := by
  intro i hi
  refine ⟨?_, ?_, ?_, exec_answers i on1⟩ <;> revert i <;> decide

theorem paramsInRange_powerOn : ParamsInRange Params.powerOn := by
  intro p; cases p <;> exact ⟨by decide +kernel, by decide +kernel⟩

theorem envOk_of_stage (stage : Stage) : EnvOk { stage := stage, level := if stage = .idle then fZero else fHalf, relStart := fHalf } := by
  cases stage <;> exact ⟨⟨by decide +kernel, by decide +kernel⟩, ⟨by decide +kernel, by decide +kernel⟩, fun _ => by first | rfl | contradiction⟩

/-- A TICK pending in each stage. -/
theorem witness_StepKeepsTheEngineInBounds (stage : Stage) :
    EngineOk (pend 0x60000000#32 0#32 (atEnv stage (if stage = .idle then fZero else fHalf) fHalf on1)) ∧
    ∃ t, step (pend 0x60000000#32 0#32 (atEnv stage (if stage = .idle then fZero else fHalf) fHalf on1)) = .next t :=
  ⟨⟨paramsInRange_powerOn, paramsInRange_powerOn, envOk_of_stage stage⟩, _, rfl⟩

theorem witness_PrepareStoresTheRateAndResetsTheVoice :
    (1#32 = 1#32 ∨ 1#32 = 2#32) ∧ (2#32 = 1#32 ∨ 2#32 = 2#32) := by decide

/-- A first note, which snaps, and a note under a glide time while another sounds, which glides. -/
theorem witness_NoteOnSetsTheTargetAndGlidesOrSnaps :
    srValid on1 = true ∧ noteGlide on1.psnap on1.sr on1.voice = 0#32 ∧
    srValid (atFreq fA4 fA4 0#32 { on1 with psnap := { on1.psnap with glideTime := 0x3C23D70A#32 } }) = true ∧
    noteGlide { on1.psnap with glideTime := 0x3C23D70A#32 } on1.sr (atFreq fA4 fA4 0#32 on1).voice = 441#32 := by decide +kernel

theorem witness_FirstNoteAfterPrepareSnaps :
    (1#32 = 1#32 ∨ 1#32 = 2#32) ∧ (2#32 = 1#32 ∨ 2#32 = 2#32) ∧ rateValid 0x472C4400#32 = true ∧ rateValid 0x3F800000#32 = true := by
  decide +kernel

/-- Every stage, with a valid rate. -/
theorem witness_NoteOffReleasesTheVoice (stage : Stage) :
    srValid (atEnv stage fHalf fHalf on1) = true ∧ (atEnv stage fHalf fHalf on1).env.stage = stage :=
  ⟨by show srValid on1 = true; decide +kernel, rfl⟩

theorem witness_AllSoundOffResetsOnlyTheEnvelope : srValid (atEnv .decay fHalf fHalf on1) = true := by decide +kernel

/-- +0.0, the largest value below 1.0, −1.0, +inf and a NaN are rates that disable the block. -/
theorem witness_DisabledBlockStaysSilent :
    ([0x00000000#32, 0x3F7FFFFF#32, 0xBF800000#32, 0x7F800000#32, 0x7FC00000#32] : List F).all
      (fun r => !(isFinite (rated r .mono).sr && fge (rated r .mono).sr fOne)) = true := by decide +kernel

/-- Disabled at power-on with a NOTE_ON pending, and enabled with a voice that sounds. -/
theorem witness_StepKeepsTheDisabledVoiceAtRest :
    SilentWhileDisabled (pend 0x30000045#32 0#32 State.reset) ∧ (∃ t, step (pend 0x30000045#32 0#32 State.reset) = .next t) ∧
    SilentWhileDisabled (pend 0x60000000#32 0#32 (atEnv .decay fHalf fHalf on1)) ∧
    ∃ t, step (pend 0x60000000#32 0#32 (atEnv .decay fHalf fHalf on1)) = .next t :=
  ⟨fun _ => ⟨rfl, rfl⟩, ⟨_, rfl⟩, fun h => absurd h (by decide +kernel), _, rfl⟩

/-- Zero, a tie, the smallest positive value, and a value past 2^32. -/
theorem witness_GlideLengthIsRoundedHalfAway :
    ([0x00000000#32, 0x3F000000#32, 0x00000001#32, 0x7F7FFFFF#32] : List F).all (fun x => isFinite x && !fSign x) = true ∧
    (roundSatU32 0x3F000000#32).toNat < 2 ^ 32 - 1 := by decide +kernel

theorem witness_IdleAndSustainStepsHold :
    srValid (atEnv .idle 0#32 0#32 on1) = true ∧ (atEnv .idle 0#32 0#32 on1).env.stage = .idle ∧
    srValid (atEnv .sustain fHalf 0#32 on1) = true ∧ (atEnv .sustain fHalf 0#32 on1).env.stage = .sustain := by decide +kernel

theorem witness_AttackStepRises :
    srValid (atEnv .attack 0#32 0#32 on1) = true ∧ (atEnv .attack 0#32 0#32 on1).env.stage = .attack := by decide +kernel

theorem witness_DecayStepFallsToSustain :
    srValid (atEnv .decay fOne 0#32 on1) = true ∧ (atEnv .decay fOne 0#32 on1).env.stage = .decay := by decide +kernel

theorem witness_ReleaseStepFallsToZero :
    srValid (atEnv .release fHalf fHalf on1) = true ∧ (atEnv .release fHalf fHalf on1).env.stage = .release := by decide +kernel

theorem inUnit_samples : (inUnit fZero ∧ inUnit fHalf) ∧ inUnit fOne :=
  ⟨⟨⟨by decide +kernel, by decide +kernel⟩, ⟨by decide +kernel, by decide +kernel⟩⟩, ⟨by decide +kernel, by decide +kernel⟩⟩

/-- Each of the three ramps; in DECAY the level is above sustain. -/
theorem witness_EnvelopeRampsAreMonotone :
    (srValid (atEnv .attack fZero fZero on1) = true ∧ ParamsInRange on1.psnap ∧ EnvOk (atEnv .attack fZero fZero on1).env) ∧
    (srValid (atEnv .decay fOne fZero on1) = true ∧ ParamsInRange on1.psnap ∧ EnvOk (atEnv .decay fOne fZero on1).env ∧
      fle on1.psnap.sustain (atEnv .decay fOne fZero on1).env.level = true) ∧
    (srValid (atEnv .release fHalf fHalf on1) = true ∧ ParamsInRange on1.psnap ∧ EnvOk (atEnv .release fHalf fHalf on1).env) :=
  ⟨⟨by decide +kernel, paramsInRange_powerOn, inUnit_samples.1.1, inUnit_samples.1.1, fun _ => rfl⟩,
    ⟨by decide +kernel, paramsInRange_powerOn, ⟨inUnit_samples.2, inUnit_samples.1.1, fun h => by simp [atEnv] at h⟩, by decide +kernel⟩,
    ⟨by decide +kernel, paramsInRange_powerOn, inUnit_samples.1.2, inUnit_samples.1.2, fun h => by simp [atEnv] at h⟩⟩

/-- An attack of 2 s at the largest finite sample rate. -/
def overflowing : State :=
  atEnv .attack fHalf fZero { rated 0x7F7FFFFF#32 .mono with psnap := { Params.powerOn with attack := 0x40000000#32 } }

theorem witness_OverflowedAttackHoldsTheLevel :
    srValid overflowing = true ∧ ParamsInRange overflowing.psnap ∧ EnvOk overflowing.env ∧ overflowing.env.stage = .attack ∧
    flt overflowing.env.level fOne = true ∧ isInf (fmul overflowing.psnap.attack overflowing.sr) = true :=
  ⟨by decide +kernel, fun p => by cases p <;> exact ⟨by decide +kernel, by decide +kernel⟩,
    ⟨inUnit_samples.1.2, inUnit_samples.1.1, fun h => by simp [overflowing, atEnv] at h⟩, by decide +kernel, by decide +kernel,
    by decide +kernel⟩

/-- Mono and stereo, gliding and not. -/
theorem witness_TickComputesTheSampleInOrder :
    srValid on1 = true ∧ srValid on2 = true ∧ srValid (atFreq fA4 fOne 5#32 on1) = true ∧ srValid (atFreq fA4 fOne 5#32 on2) = true := by
  decide +kernel

theorem witness_StepKeepsTheChannelsEqual :
    ChannelsOk (pend 0x60000000#32 0#32 on1) ∧ (∃ t, step (pend 0x60000000#32 0#32 on1) = .next t) ∧
    ChannelsOk (pend 0x60000000#32 0#32 { on2 with voice := { on2.voice with toneZ0 := fHalf, toneZ1 := fHalf } }) ∧
    ∃ t, step (pend 0x60000000#32 0#32 { on2 with voice := { on2.voice with toneZ0 := fHalf, toneZ1 := fHalf } }) = .next t :=
  ⟨rfl, ⟨_, rfl⟩, rfl, _, rfl⟩

theorem witness_TickOutputsAgree :
    (ChannelsOk on1 ∧ on1.nch = .mono) ∧ (ChannelsOk on2 ∧ on2.nch = .stereo) := ⟨⟨rfl, rfl⟩, rfl, rfl⟩

/-- A TICK at rest: the phase and the increment lie in [0, 2π) before and after. -/
theorem witness_StepKeepsThePhaseBelowTwoPi :
    inTurn (pend 0x60000000#32 0#32 on1).voice.phase ∧
    ∃ t, step (pend 0x60000000#32 0#32 on1) = .next t ∧ inTurn t.voice.phaseDelta :=
  ⟨⟨by decide +kernel, by decide +kernel⟩, _, rfl,
    by show fle fZero fZero = true; decide +kernel, by show flt fZero twoPi = true; decide +kernel⟩

theorem witness_DriveKeepsFullScaleZeroAndSign :
    plainUnits.Conforming ∧ inRange .drive fHalf ∧ fgt fHalf fZero = true ∧ isFinite (plainUnits.tanh (fmul fHalf fKMax)) = true ∧
    isNaN 0x7F800000#32 = false :=
  ⟨plainUnits_conforming, ⟨by decide +kernel, by decide +kernel⟩, by decide +kernel, by decide +kernel, by decide⟩

theorem witness_ColorZeroIsTheIdentity :
    (isFinite fHalf = true ∧ isFinite fOne = true ∧ isFinite (fsub fHalf fOne) = true ∧ fHalf ≠ 0x80000000#32) ∧
    (isFinite fZero = true ∧ isFinite (fneg fOne) = true ∧ isFinite (fsub fZero (fneg fOne)) = true ∧ fZero ≠ 0x80000000#32) := by
  decide +kernel

theorem witness_AlphaLiesInTheUnitInterval :
    inRange .toneCutoff 0x42A00000#32 ∧ inRange .toneCutoff 0x45FA0000#32 ∧ rateValid 0x3F800000#32 = true ∧
    rateValid 0x7F7FFFFF#32 = true :=
  ⟨⟨by decide +kernel, by decide +kernel⟩, ⟨by decide +kernel, by decide +kernel⟩, by decide +kernel, by decide +kernel⟩

theorem witness_GlideEndsAfterItsCount : srValid (atFreq fA4 fA4 5#32 on1) = true := by decide +kernel

/-- An octave up and an octave down, the ends of the factor of two. -/
theorem witness_LastGlideStepLandsOnTheTarget :
    ([(0x42DC0000#32, 0x435C0000#32), (0x435C0000#32, 0x42DC0000#32)] : List (F × F)).all (fun p =>
      let s := atFreq p.1 p.2 1#32 on1
      srValid s && s.voice.glideRem == 1#32 && isFinite s.voice.curFreq && isFinite s.voice.tgtFreq &&
        decide (0 < fUnits s.voice.curFreq) && decide (0 < fUnits s.voice.tgtFreq) &&
        decide (fUnits s.voice.curFreq ≤ 2 * fUnits s.voice.tgtFreq) &&
        decide (fUnits s.voice.tgtFreq ≤ 2 * fUnits s.voice.curFreq)) = true := by decide +kernel

/-- An inexact sum that is a tie, one that overflows, and an exact zero. -/
theorem witness_AddIsTheNearestValue :
    (isFinite 0x4B800000#32 = true ∧ isFinite fOne = true ∧ isFinite (fadd 0x4B800000#32 fOne) = true) ∧
    (isFinite 0x7F7FFFFF#32 = true ∧ isInf (fadd 0x7F7FFFFF#32 0x7F7FFFFF#32) = true) ∧
    fUnits fOne + fUnits (fneg fOne) = 0 := by decide +kernel

/-- An inexact product, one that underflows to a zero, and one that overflows. -/
theorem witness_MulIsTheNearestValue :
    (isFinite 0x3DCCCCCD#32 = true ∧ isFinite (fmul 0x3DCCCCCD#32 0x3DCCCCCD#32) = true) ∧
    (isFinite 0x00000001#32 = true ∧ fmul 0x00000001#32 fHalf = fZero) ∧
    (isFinite 0x7F7FFFFF#32 = true ∧ isInf (fmul 0x7F7FFFFF#32 0x40000000#32) = true) := by decide +kernel

/-- One third, and a quotient that overflows. -/
theorem witness_DivIsTheNearestValue :
    (isFinite fOne = true ∧ isFinite 0x40400000#32 = true ∧ fUnits 0x40400000#32 ≠ 0 ∧ fdiv fOne 0x40400000#32 = 0x3EAAAAAB#32) ∧
    (isFinite 0x00000001#32 = true ∧ fUnits 0x00000001#32 ≠ 0 ∧ isInf (fdiv fOne 0x00000001#32) = true) := by decide +kernel

theorem witness_FunctionUnitsHaveTheirProperties : plainUnits.Conforming := plainUnits_conforming

theorem witness_FrameOfTheRegisterCommands :
    ∀ i ∈ ([.nop, .readReg 0x22#32, .readReg 0xFF#32, .writeParam 0#32 fOne, .beginBlock] : List Instr),
      (i.opcode = .nop ∨ i.opcode = .readReg ∨ i.opcode = .writeParam ∨ i.opcode = .beginBlock) ∧ ∃ t, exec i on1 = .next t := by
  intro i hi
  refine ⟨?_, exec_answers i on1⟩
  revert i; decide

theorem witness_FrameOfTheNoteCommands :
    ∀ i ∈ ([.noteOn 127#32, .noteOff 0#32, .allSoundOff] : List Instr),
      (i.opcode = .noteOn ∨ i.opcode = .noteOff ∨ i.opcode = .allSoundOff) ∧ ∃ t, exec i on1 = .next t := by
  intro i hi
  refine ⟨?_, exec_answers i on1⟩
  revert i; decide

theorem witness_FrameOfTick :
    (∃ t, exec .tick on1 = .next t) ∧ on1.nch = .mono ∧ on1.voice.glideRem = 0#32 ∧
    (∃ t, exec .tick (atFreq fA4 fOne 5#32 on2) = .next t) := ⟨⟨_, rfl⟩, rfl, rfl, _, rfl⟩

/-- A count PREPARE accepts and one it refuses. -/
theorem witness_FrameOfPrepare :
    (∃ t, exec (.prepare 2#32 0x472C4400#32) on1 = .next t) ∧ (2#32 = 1#32 ∨ 2#32 = 2#32) ∧
    (∃ t, exec (.prepare 3#32 0x472C4400#32) on1 = .next t) ∧ ¬(3#32 = 1#32 ∨ 3#32 = 2#32) :=
  ⟨⟨_, rfl⟩, by decide, ⟨_, rfl⟩, by decide⟩

end Sys2Proof.Tests
end

/-!
PROOF. F arithmetic rounds to the nearest value (00_scope R13) and ROUND_SAT_U32 to the nearest integer (R16): one statement about
`roundF` of a signed quotient serves the sum, the product and the quotient.
-/

namespace Sys2Proof.Machine

/-! ### Signed magnitudes -/

/-- The integer with the given sign and magnitude, as `fUnits` reads an F value. -/
def withSign (neg : Bool) (m : Nat) : Int := if neg then -(m : Int) else (m : Int)

theorem fUnits_eq_withSign (x : F) : fUnits x = withSign (fSign x) (magUnits (fMag x)) := rfl

@[simp] theorem abs_withSign (neg : Bool) (m : Nat) : |withSign neg m| = m := by
  cases neg <;> simp [withSign]

theorem withSign_false (m : Nat) : withSign false m = m := rfl

theorem withSign_mul (s t : Bool) (m n : Nat) : withSign s m * withSign t n = withSign (s != t) (m * n) := by
  cases s <;> cases t <;> simp [withSign]

theorem withSign_natAbs (n : Int) : withSign (decide (n < 0)) n.natAbs = n := by
  simp only [withSign, decide_eq_true_eq]
  split <;> omega

theorem withSign_mul_natCast (s : Bool) (m n : Nat) : withSign s m * n = withSign s (m * n) := by
  simpa only [withSign_false, Bool.bne_false] using withSign_mul s false m n

/-- Taking the divisor's sign out of a distance leaves the distance. -/
theorem abs_mul_withSign_sub (x : Int) (neg t : Bool) (num den : Nat) :
    |x * withSign t den - withSign (neg != t) num| = |x * den - withSign neg num| := by
  cases t
  · simp [withSign]
  · rw [← abs_neg]
    congr 1
    cases neg <;> simp [withSign] <;> ring

/-! ### Rounding a signed quotient -/

theorem isInf_roundF_iff (neg : Bool) (num : Nat) {den : Nat} (hd : 0 < den) :
    isInf (roundF neg num den) = true ↔ (2 ^ 25 - 1) * 2 ^ 252 * (den : Int) ≤ num := by
  rw [roundF, isInf, fMag_packF neg (roundMag_lt num den), beq_iff_eq, roundMag_eq_infMag_iff hd]
  omega

theorem fSign_roundF (neg : Bool) (num den : Nat) : fSign (roundF neg num den) = neg :=
  fSign_packF neg (roundMag_lt num den)

/-- R13 for any quotient `z / v` of signed integers: what `roundF` answers for its sign and magnitudes is no NaN, an infinity exactly
from half a step past the largest finite value on, has the quotient's sign, and is nearest to it, even at a tie. -/
theorem roundF_nearest {neg t : Bool} {num den : Nat} (hd : 0 < den) {z v : Int} (hv : v = withSign t den)
    (hz : z = withSign (neg != t) num) :
    isNaN (roundF neg num den) = false ∧ (isInf (roundF neg num den) = true ↔ (2 ^ 25 - 1) * 2 ^ 252 * |v| ≤ |z|) ∧
    fSign (roundF neg num den) = neg ∧
    ∀ c : F, isFinite (roundF neg num den) = true → isFinite c = true →
      |fUnits (roundF neg num den) * v - z| ≤ |fUnits c * v - z| ∧
        (|fUnits (roundF neg num den) * v - z| = |fUnits c * v - z| → fUnits c ≠ fUnits (roundF neg num den) →
          (roundF neg num den).getLsbD 0 = false) := by
  subst hv hz
  simp only [abs_withSign, abs_mul_withSign_sub]
  exact ⟨isNaN_roundF _ _ _, isInf_roundF_iff _ _ hd, fSign_roundF _ _ _, fun c hr _ => roundF_near hd hr⟩

/-! ### The operators on finite values -/

/-- The exact sum zero gives a zero, negative only where both terms are. -/
theorem fadd_of_sum_zero {a b : F} (ha : isFinite a = true) (hb : isFinite b = true) (h0 : fUnits a + fUnits b = 0) :
    fadd a b = packF (fSign a && fSign b) 0 := by
  simp [fadd, addOr, isNaN_of_isFinite ha, isNaN_of_isFinite hb, isInf_of_isFinite ha, isInf_of_isFinite hb, h0]

theorem fadd_of_sum_ne_zero {a b : F} (ha : isFinite a = true) (hb : isFinite b = true) (h0 : fUnits a + fUnits b ≠ 0) :
    fadd a b = roundF (decide (fUnits a + fUnits b < 0)) (fUnits a + fUnits b).natAbs 1 := by
  simp [fadd, addOr, isNaN_of_isFinite ha, isNaN_of_isFinite hb, isInf_of_isFinite ha, isInf_of_isFinite hb, h0]

/-- The quotient of two finite values, the divisor not zero, is the exact quotient, rounded. -/
theorem fdiv_finite {a b : F} (ha : isFinite a = true) (hb : isFinite b = true) (h0 : fMag b ≠ 0) :
    fdiv a b = roundF (fSign a != fSign b) (magUnits (fMag a) * 2 ^ 149) (magUnits (fMag b)) := by
  simp [fdiv, isNaN_of_isFinite ha, isNaN_of_isFinite hb, isInf_of_isFinite ha, isInf_of_isFinite hb, h0]

theorem fMag_ne_zero {x : F} (h : fUnits x ≠ 0) : fMag x ≠ 0 := by
  intro h0
  apply h
  simp [fUnits_eq_withSign, h0, withSign]

/-! ### Rounding to a u32 (R16) -/

/-- ROUND_SAT_U32 of a finite value that is not negative: half is added, the fraction dropped, the result capped at 2^32 − 1. -/
theorem roundSatU32_toNat {x : F} (hf : isFinite x = true) (hs : fSign x = false) :
    (roundSatU32 x).toNat = min ((2 * magUnits (fMag x) + 2 ^ 149) / 2 ^ 150) (2 ^ 32 - 1) := by
  unfold roundSatU32 roundHalfAway
  simp only [isNaN_of_isFinite hf, isInf_of_isFinite hf, hs, Bool.false_eq_true, if_false]
  generalize (2 * magUnits (fMag x) + 2 ^ 149) / 2 ^ 150 = m
  rw [if_neg (by omega)]
  split
  · simp only [BitVec.reduceToNat]; omega
  · rw [BitVec.ofInt_natCast, BitVec.toNat_ofNat]; omega

/-! ### The obligations -/

/-- Settles O36: the rounded length is the floor of x + 1/2, capped at 2^32 − 1. -/
theorem glideLengthIsRoundedHalfAway : Obligations.GlideLengthIsRoundedHalfAway := by
  intro x hf hs
  rw [roundSatU32_toNat hf hs, fUnits_eq_withSign, hs, withSign_false]
  omega

/-- Settles O52: an exact sum of zero gives a zero, which is exact; any other is rounded as a quotient by 1. -/
theorem addIsTheNearestValue : Obligations.AddIsTheNearestValue := by
  intro a b ha hb
  by_cases h0 : fUnits a + fUnits b = 0
  · have hz : fUnits (packF (fSign a && fSign b) 0) = 0 := by rw [fUnits_packF _ (by decide)]; simp
    have hinf : isInf (packF (fSign a && fSign b) 0) = false := by simp [isInf, fMag_packF, infMag]
    rw [fadd_of_sum_zero ha hb h0]
    simp only [h0, hz, hinf, isNaN_packF _ (Nat.zero_le infMag), fSign_packF _ (show 0 < 2 ^ 31 by decide)]
    refine ⟨trivial, by norm_num, rfl, fun c _ _ => ⟨by simp, fun heq hne => ?_⟩⟩
    exact packF_lsb _ (by decide) rfl
  · have h := roundF_nearest (neg := decide (fUnits a + fUnits b < 0)) (t := false) (den := 1) (v := 1) (by decide) rfl
      (by rw [Bool.bne_false, withSign_natAbs])
    simp only [abs_one, mul_one] at h
    simpa only [fadd_of_sum_ne_zero ha hb h0, if_neg h0] using h

/-- Settles O53: the product in units is rounded as a quotient by 2^149. -/
theorem mulIsTheNearestValue : Obligations.MulIsTheNearestValue := by
  intro a b ha hb
  have hz : fUnits a * fUnits b = withSign ((fSign a != fSign b) != false) (magUnits (fMag a) * magUnits (fMag b)) := by
    rw [Bool.bne_false, ← withSign_mul, ← fUnits_eq_withSign, ← fUnits_eq_withSign]
  have h := roundF_nearest (den := 2 ^ 149) (v := 2 ^ 149) (by decide) (by simp [withSign_false]) hz
  rw [abs_of_nonneg (by positivity : (0 : Int) ≤ 2 ^ 149)] at h
  simpa only [fmul_finite ha hb] using h

/-- Settles O54: the quotient keeps the divisor's sign, which the distances do not see. -/
theorem divIsTheNearestValue : Obligations.DivIsTheNearestValue := by
  intro a b ha hb h0
  have hm : fMag b ≠ 0 := fMag_ne_zero h0
  have hpos : 0 < magUnits (fMag b) := Nat.pos_of_ne_zero (fun h => hm (magUnits_eq_zero.1 h))
  have hz : fUnits a * 2 ^ 149 = withSign ((fSign a != fSign b) != fSign b) (magUnits (fMag a) * 2 ^ 149) := by
    rw [Bool.bne_assoc, bne_self_eq_false, Bool.bne_false, fUnits_eq_withSign]
    exact_mod_cast withSign_mul_natCast (fSign a) (magUnits (fMag a)) (2 ^ 149)
  simpa only [fdiv_finite ha hb hm] using roundF_nearest hpos (fUnits_eq_withSign b) hz

end Sys2Proof.Machine

/-!
PROOF. What the state keeps (10_state): the fault record and the engine's bounds under every step, what TICK leaves alone, what
WRITE_PARAM and PREPARE store, the power-on values, the STATUS view and the disabled block.
-/

namespace Sys2Proof.Machine

/-! ### TICK and NOTE_ON, enabled and disabled -/

theorem tickWith_enabled (u : MathUnits) {s : State} (h : srValid s = true) :
    tickWith u s =
      let env := envNextSample s.psnap s.sr s.env
      let voice := voiceTick u s.psnap s.sr s.nch env.level s.voice
      answer (frameResponse (outputFrame s.psnap.gain s.nch voice)) { s with env := env, voice := voice } := by
  simp [tickWith, h]

theorem tickWith_disabled (u : MathUnits) {s : State} (h : srValid s = false) :
    tickWith u s = answer (frameResponse { out0 := fZero, out1 := fZero }) s := by
  simp [tickWith, h]

theorem noteOnWith_enabled (u : MathUnits) (n : Word) {s : State} (h : srValid s = true) :
    noteOnWith u n s =
      answerNone
        { s with
          voice := voiceNoteOn s.psnap s.sr (noteTarget u s.psnap.pitchSemitones n) s.voice
          env := envNoteOn s.env } := by
  simp [noteOnWith, h]

theorem noteOnWith_disabled (u : MathUnits) (n : Word) {s : State} (h : srValid s = false) : noteOnWith u n s = answerNone s := by
  simp [noteOnWith, h]

/-! ### The envelope's release start and bounds -/

theorem stepAttack_relStart (p : Params) (sr : F) (e : Env) : (stepAttack p sr e).relStart = e.relStart := by
  simp only [stepAttack]
  split
  · rfl
  · split <;> rfl

theorem stepDecay_relStart (p : Params) (sr : F) (e : Env) : (stepDecay p sr e).relStart = e.relStart := by
  simp only [stepDecay]
  split
  · rfl
  · split <;> rfl

theorem stepRelease_relStart (p : Params) (sr : F) (e : Env) : (stepRelease p sr e).relStart = e.relStart := by
  simp only [stepRelease]
  split
  · rfl
  · split <;> rfl

/-- No stage's step writes the release start (10_state R46). -/
@[simp] theorem envNextSample_relStart (p : Params) (sr : F) (e : Env) : (envNextSample p sr e).relStart = e.relStart := by
  unfold envNextSample
  split
  · rfl
  · exact stepAttack_relStart p sr e
  · exact stepDecay_relStart p sr e
  · rfl
  · exact stepRelease_relStart p sr e

theorem envZero_ok : EnvOk Env.zero := ⟨inUnit_zero, inUnit_zero, fun _ => rfl⟩

theorem envNoteOn_ok {e : Env} (he : EnvOk e) : EnvOk (envNoteOn e) := by
  obtain ⟨hl, hr, -⟩ := he
  exact ⟨hl, hr, nofun⟩

/-- A release starts at the level, which lies in [0, 1] (41_envelope R144). -/
theorem envNoteOff_ok {e : Env} (he : EnvOk e) : EnvOk (envNoteOff e) := by
  have ⟨hl, _, _⟩ := he
  unfold envNoteOff
  split
  · exact ⟨hl, hl, nofun⟩
  · exact ⟨hl, hl, nofun⟩
  · exact ⟨hl, hl, nofun⟩
  · exact he
  · exact he

/-! ### The voice registers of a TICK -/

theorem glideStep_of_rem_zero (sr : F) {v : Voice} (h : v.glideRem = 0#32) : glideStep sr v = v := by
  rcases glideStep_cases sr v with ⟨-, e⟩ | ⟨hne, -⟩
  · exact e
  · exact absurd h hne

@[simp] theorem glideStep_tgtFreq (sr : F) (v : Voice) : (glideStep sr v).tgtFreq = v.tgtFreq := by
  rcases glideStep_cases sr v with ⟨-, e⟩ | ⟨-, f, e⟩ <;> rw [e]

@[simp] theorem glideStep_toneZ1 (sr : F) (v : Voice) : (glideStep sr v).toneZ1 = v.toneZ1 := by
  rcases glideStep_cases sr v with ⟨-, e⟩ | ⟨-, f, e⟩ <;> rw [e]

section
variable (u : MathUnits) (p : Params) (sr : F) (nch : Channels) (env : F) (v : Voice)

@[simp] theorem voiceTick_phaseDelta : (voiceTick u p sr nch env v).phaseDelta = (glideStep sr v).phaseDelta := rfl
@[simp] theorem voiceTick_curFreq : (voiceTick u p sr nch env v).curFreq = (glideStep sr v).curFreq := rfl
@[simp] theorem voiceTick_glideRem : (voiceTick u p sr nch env v).glideRem = (glideStep sr v).glideRem := rfl
@[simp] theorem voiceTick_tgtFreq : (voiceTick u p sr nch env v).tgtFreq = v.tgtFreq := glideStep_tgtFreq sr v
@[simp] theorem voiceTick_mono_toneZ1 : (voiceTick u p sr .mono env v).toneZ1 = v.toneZ1 := glideStep_toneZ1 sr v

end

/-! ### The fault record -/

/-- A command leaves the fault record alone, or does nothing but raise a fault. -/
theorem exec_fault_cases {i : Instr} {s t : State} (h : exec i s = .next t) :
    (t.fault = s.fault ∧ t.faultCause = s.faultCause) ∨ ∃ c, t = raiseFault c s := by
  cases i with
  | prepare n r =>
    cases hc : channelsOfCount n with
    | none => rw [exec_prepare_none hc] at h; cases h; exact .inr ⟨_, rfl⟩
    | some c => rw [exec_prepare_some hc] at h; cases h; exact .inl ⟨rfl, rfl⟩
  | readReg a =>
    cases hr : regOfAddr a with
    | none => rw [exec_readReg_none hr] at h; cases h; exact .inr ⟨_, rfl⟩
    | some r => rw [exec_readReg_some hr] at h; cases h; exact .inl ⟨rfl, rfl⟩
  | nop => rw [exec_nop] at h; cases h; exact .inl ⟨rfl, rfl⟩
  | beginBlock => rw [exec_beginBlock] at h; cases h; exact .inl ⟨rfl, rfl⟩
  | writeParam j v => rw [exec_writeParam] at h; cases h; exact .inl ⟨rfl, rfl⟩
  | noteOn n =>
    rw [exec_noteOn] at h; cases h
    cases hv : srValid s with
    | true => rw [noteOnWith_enabled _ _ hv]; exact .inl ⟨rfl, rfl⟩
    | false => rw [noteOnWith_disabled _ _ hv]; exact .inl ⟨rfl, rfl⟩
  | noteOff n =>
    rw [exec_noteOff] at h; cases h
    split <;> exact .inl ⟨rfl, rfl⟩
  | allSoundOff =>
    rw [exec_allSoundOff] at h; cases h
    split <;> exact .inl ⟨rfl, rfl⟩
  | tick =>
    rw [exec_tick] at h; cases h
    cases hv : srValid s with
    | true => rw [tickWith_enabled _ hv]; exact .inl ⟨rfl, rfl⟩
    | false => rw [tickWith_disabled _ hv]; exact .inl ⟨rfl, rfl⟩

/-- A raised fault records its own cause, or keeps the cause that is there (60_exceptions R234). -/
theorem raiseFault_recordOk (c : FaultCause) {s : State} (hs : FaultRecordOk s) : FaultRecordOk (raiseFault c s) := by
  refine ⟨fun h => by simp at h, fun _ => ?_⟩
  rw [raiseFault_faultCause]
  split
  · next h => exact hs.2 h
  · exact ⟨c, rfl⟩

theorem exec_recordOk {i : Instr} {s t : State} (hs : FaultRecordOk s) (h : exec i s = .next t) : FaultRecordOk t := by
  rcases exec_fault_cases h with ⟨hf, hc⟩ | ⟨c, rfl⟩
  · unfold FaultRecordOk
    rw [hf, hc]
    exact hs
  · exact raiseFault_recordOk c hs

/-! ### The engine's bounds -/

theorem raiseFault_engineOk (c : FaultCause) {s : State} (hs : EngineOk s) : EngineOk (raiseFault c s) := by
  simpa [EngineOk] using hs

theorem exec_engineOk {i : Instr} {s t : State} (hs : EngineOk s) (h : exec i s = .next t) : EngineOk t := by
  have ⟨hcell, hsnap, henv⟩ := hs
  cases i with
  | nop => rw [exec_nop] at h; cases h; exact hs
  | prepare n r =>
    cases hc : channelsOfCount n with
    | none => rw [exec_prepare_none hc] at h; cases h; exact raiseFault_engineOk _ hs
    | some c => rw [exec_prepare_some hc] at h; cases h; exact ⟨hcell, hsnap, envZero_ok⟩
  | beginBlock => rw [exec_beginBlock] at h; cases h; exact ⟨hcell, hcell, henv⟩
  | noteOn n =>
    rw [exec_noteOn] at h; cases h
    cases hv : srValid s with
    | true => rw [noteOnWith_enabled _ _ hv]; exact ⟨hcell, hsnap, envNoteOn_ok henv⟩
    | false => rw [noteOnWith_disabled _ _ hv]; exact hs
  | noteOff n =>
    rw [exec_noteOff] at h; cases h
    split
    · exact ⟨hcell, hsnap, envNoteOff_ok henv⟩
    · exact hs
  | allSoundOff =>
    rw [exec_allSoundOff] at h; cases h
    split
    · exact ⟨hcell, hsnap, envZero_ok⟩
    · exact hs
  | tick =>
    rw [exec_tick] at h; cases h
    cases hv : srValid s with
    | true => rw [tickWith_enabled _ hv]; exact ⟨hcell, hsnap, envNextSample_ok hsnap hv henv⟩
    | false => rw [tickWith_disabled _ hv]; exact hs
  | writeParam j v => rw [exec_writeParam] at h; cases h; exact ⟨writeCell_inRange hcell j v, hsnap, henv⟩
  | readReg a =>
    cases hr : regOfAddr a with
    | none => rw [exec_readReg_none hr] at h; cases h; exact raiseFault_engineOk _ hs
    | some r => rw [exec_readReg_some hr] at h; cases h; exact hs

/-! ### Conditioning -/

/-- The values equal to zero are the two zeros (00_scope R13). -/
theorem feq_fZero_iff {x : F} : feq x fZero = true ↔ x = fZero ∨ x = 0x80000000#32 := by
  constructor
  · intro h
    have hm : fMag x = 0 := by
      have hu := (feq_iff.1 h).2.2
      rw [show fUnits fZero = 0 by decide +kernel] at hu
      by_contra hne
      have := magUnits_eq_zero.not.2 hne
      have := natAbs_fUnits x
      omega
    rw [← packF_fields x, hm]
    cases fSign x
    · exact .inl rfl
    · exact .inr rfl
  · rintro (rfl | rfl) <;> decide +kernel

theorem paramLo_ne_negZero (p : Param) : paramLo p ≠ 0x80000000#32 := by cases p <;> decide
theorem paramHi_ne_negZero (p : Param) : paramHi p ≠ 0x80000000#32 := by cases p <;> decide

/-- Conditioning stores −0.0 as +0.0 and leaves every other clamped value as it is (40_parameters R121). -/
theorem condValue_eq_ite (p : Param) (v : F) :
    condValue p v =
      if clampf v (paramLo p) (paramHi p) = 0x80000000#32 then fZero else clampf v (paramLo p) (paramHi p) := by
  simp only [condValue, feq_fZero_iff]
  generalize clampf v (paramLo p) (paramHi p) = c
  by_cases h0 : c = fZero <;> simp [h0]

theorem condValue_below {p : Param} {v : F} (h : flt v (paramLo p) = true) : condValue p v = paramLo p := by
  simp [condValue_eq_ite, clampf, h, paramLo_ne_negZero]

theorem condValue_above {p : Param} {v : F} (h : ¬flt v (paramLo p) = true) (h' : flt (paramHi p) v = true) :
    condValue p v = paramHi p := by
  simp [condValue_eq_ite, clampf, fgt, h, h', paramHi_ne_negZero]

theorem condValue_within {p : Param} {v : F} (h : ¬flt v (paramLo p) = true) (h' : ¬flt (paramHi p) v = true) :
    condValue p v = if v = 0x80000000#32 then fZero else v := by
  simp [condValue_eq_ite, clampf, fgt, h, h']

theorem writeCell_of_number {i v : Word} {p : Param} (hi : paramOfIndex i = some p) (hv : isNaN v = false) (cells : Params) :
    writeCell i v cells = setParam cells p (condValue p v) := by
  simp [writeCell, hi, hv]

/-! ### The STATUS view -/

/-- Every bit of STATUS (10_state R47). -/
theorem getLsbD_statusWord (s : State) (i : Nat) :
    (statusWord s).getLsbD i =
      if i = 0 then srValid s else if i = 1 then s.fault else if i < 4 then false else s.faultCause.getLsbD (i - 4) := by
  change BitVec.getLsbD (w := 24 + 4 + 2 + 1 + 1) (_ ++ _) i = _
  simp only [BitVec.getLsbD_append, BitVec.getLsbD_ofBool, BitVec.getLsbD_zero]
  rcases i with _ | _ | _ | _ | i
  · simp
  · simp
  · simp
  · simp
  · by_cases h : i < 4
    · simp [h]
    · simp [h, BitVec.getLsbD_of_ge s.faultCause i (by omega)]

/-! ### Power-on -/

theorem paramsInRange_powerOn : ParamsInRange Params.powerOn := by
  intro p
  cases p <;> exact ⟨by decide +kernel, by decide +kernel⟩

/-! ### The obligations -/

/-- Settles O15: a step leaves the fault record alone or raises a fault, which records one of the four causes. -/
theorem stepKeepsTheFaultRecordLegal : Obligations.StepKeepsTheFaultRecordLegal :=
  fun _ _ hs h => step_keeps (fun _ _ _ _ hp => hp) (fun _ _ _ => exec_recordOk) (fun c _ => raiseFault_recordOk c) h hs

/-- Settles O28: every command keeps the bounds, TICK by the envelope's own step lemma, WRITE_PARAM by conditioning. -/
theorem stepKeepsTheEngineInBounds : Obligations.StepKeepsTheEngineInBounds :=
  fun _ _ hs h => step_keeps (fun _ _ _ _ hp => hp) (fun _ _ _ => exec_engineOk) (fun c _ => raiseFault_engineOk c) h hs

/-- Settles O24: the written cell holds the conditioned value, which is one of four by the comparisons with the range. -/
theorem writeParamStoresTheConditionedValue : Obligations.WriteParamStoresTheConditionedValue := by
  intro i v p s hi hv
  refine ⟨_, exec_writeParam i v s, ?_, fun q hq => ?_, rfl⟩
  · rw [answerNone_pcell, writeCell_of_number hi hv, getParam_setParam_self]
    split
    · next h => exact condValue_below h
    · next h =>
      split
      · next h' => exact condValue_above h h'
      · next h' => exact condValue_within h h'
  · rw [answerNone_pcell, writeCell_of_number hi hv, getParam_setParam_of_ne hq]

/-- Settles O58: disabled, TICK writes the response alone; enabled, it writes the envelope and the voice, whose own steps keep the
registers named. -/
theorem frameOfTick : Obligations.FrameOfTick := by
  intro s t h
  rw [exec_tick] at h
  cases h
  cases hv : srValid s with
  | false => simp [tickWith_disabled _ hv]
  | true =>
    simp only [tickWith_enabled _ hv, answer_pcell, answer_psnap, answer_sr, answer_nch, answer_voice, answer_env, answer_fault,
      answer_faultCause, answer_audio, answer_control, answer_arbTurn, envNextSample_relStart, voiceTick_tgtFreq, true_and]
    refine ⟨fun hm => ?_, fun h0 => ?_⟩
    · rw [hm, voiceTick_mono_toneZ1]
    · simp [glideStep_of_rem_zero _ h0]

/-- Settles O18: each register of `State.reset` is by definition its constant in R52. -/
theorem resetLeavesThePowerOnValues : Obligations.ResetLeavesThePowerOnValues := by
  exact ⟨rfl, rfl, rfl, rfl, rfl, rfl, rfl, rfl, rfl, rfl, rfl, rfl, rfl, rfl, rfl, rfl⟩

/-- Settles O19: each invariant at the power-on state. -/
theorem resetMeetsTheInvariants : Obligations.ResetMeetsTheInvariants := by
  have hengine : EngineOk State.reset := ⟨paramsInRange_powerOn, paramsInRange_powerOn, envZero_ok⟩
  have hrecord : FaultRecordOk State.reset := ⟨fun _ => rfl, nofun⟩
  have hchannels : ChannelsOk State.reset := rfl
  have hsilent : SilentWhileDisabled State.reset := fun _ => ⟨rfl, rfl⟩
  have hphase : inTurn State.reset.voice.phase := ⟨by decide +kernel, by decide +kernel⟩
  exact ⟨hengine, hrecord, hchannels, hsilent, hphase⟩

/-- Settles O22: each field is read off bit by bit. -/
theorem statusShowsItsFields : Obligations.StatusShowsItsFields := by
  intro s
  refine ⟨getLsbD_statusWord s 0, getLsbD_statusWord s 1, ?_, ?_, ?_⟩
  · ext i hi
    rw [BitVec.getElem_extractLsb', getLsbD_statusWord, if_neg (by omega), if_neg (by omega), if_pos (by omega),
      BitVec.getElem_zero]
  · ext i hi
    rw [BitVec.getElem_extractLsb', getLsbD_statusWord, if_neg (by omega), if_neg (by omega), if_neg (by omega),
      Nat.add_sub_cancel_left, BitVec.getLsbD_eq_getElem hi]
  · ext i hi
    rw [BitVec.getElem_extractLsb', getLsbD_statusWord, if_neg (by omega), if_neg (by omega), if_neg (by omega),
      BitVec.getLsbD_of_ge _ _ (by omega), BitVec.getElem_zero]

/-- Settles O29: PREPARE accepts both counts. -/
theorem prepareStoresTheRateAndResetsTheVoice : Obligations.PrepareStoresTheRateAndResetsTheVoice := by
  rintro nchf srw s (rfl | rfl)
  · exact exec_prepare_some rfl srw s
  · exact exec_prepare_some rfl srw s

/-- Settles O34: with SR_VALID false each of the four commands takes its disabled branch. -/
theorem disabledBlockStaysSilent : Obligations.DisabledBlockStaysSilent := by
  intro n s h
  have hv : srValid s = false := h
  refine ⟨?_, ?_, ?_, ?_⟩
  · rw [exec_noteOn, noteOnWith_disabled _ _ hv]; rfl
  · rw [exec_noteOff, hv]; rfl
  · rw [exec_allSoundOff, hv]; rfl
  · rw [exec_tick, tickWith_disabled _ hv]; rfl

end Sys2Proof.Machine

/-!
PROOF. Memory access (20_memory): the bytes of a transaction (R73) and the register map as READ_REG sees it (R71, R72, R75).
-/

namespace Sys2Proof

/-! ### The byte stream -/

/-- The four bytes of a word stand side by side, the first one lowest (R73): bit `i` is bit `i % 8` of byte `i / 8`. -/
theorem wordOfBytes_eq_append (b0 b1 b2 b3 : Byte) :
    wordOfBytes b0 b1 b2 b3 = (b3 ++ b2 ++ b1 ++ b0 : BitVec (8 + 8 + 8 + 8)) := by
  apply BitVec.eq_of_getLsbD_eq
  intro i hi
  simp only [wordOfBytes, BitVec.getLsbD_or, BitVec.getLsbD_shiftLeft, BitVec.getLsbD_setWidth, BitVec.getLsbD_append]
  grind

/-- Adjacent slices of a word join to one slice, and the slice of all 32 bits is the word. -/
theorem wordOfBytes_bytes (w : Word) :
    wordOfBytes (w.extractLsb' 0 8) (w.extractLsb' 8 8) (w.extractLsb' 16 8) (w.extractLsb' 24 8) = w := by
  rw [wordOfBytes_eq_append, BitVec.extractLsb'_append_extractLsb'_eq_extractLsb' (by rfl),
    BitVec.extractLsb'_append_extractLsb'_eq_extractLsb' (by rfl),
    BitVec.extractLsb'_append_extractLsb'_eq_extractLsb' (by rfl)]
  exact BitVec.extractLsb'_eq_self

/-- Reading back the eight bytes of two words leaves the rest of the stream. -/
theorem transactionOfBytes_bytesOfTransaction (t : Transaction) (rest : List Byte) :
    transactionOfBytes (bytesOfTransaction t ++ rest) = some (t, rest) := by
  simp only [bytesOfTransaction, bytesOfWord, List.cons_append, List.nil_append, transactionOfBytes, wordOfBytes_bytes]

/-- Settles O7: each of the two words comes back from its four bytes. -/
theorem byteStreamCarriesTheTransaction : Obligations.ByteStreamCarriesTheTransaction :=
  fun t rest => ⟨rfl, transactionOfBytes_bytesOfTransaction t rest⟩

end Sys2Proof

namespace Sys2Proof.Machine

/-! ### The register map -/

/-- The mapped addresses and their registers (20_memory R71). -/
def regMap : List (Word × Reg) :=
  [(0x00#32, .pcell .gain), (0x01#32, .pcell .attack), (0x02#32, .pcell .decay), (0x03#32, .pcell .sustain),
    (0x04#32, .pcell .release), (0x05#32, .pcell .pitchSemitones), (0x06#32, .pcell .glideTime), (0x07#32, .pcell .drive),
    (0x08#32, .pcell .color), (0x09#32, .pcell .toneCutoff),
    (0x10#32, .psnap .gain), (0x11#32, .psnap .attack), (0x12#32, .psnap .decay), (0x13#32, .psnap .sustain),
    (0x14#32, .psnap .release), (0x15#32, .psnap .pitchSemitones), (0x16#32, .psnap .glideTime), (0x17#32, .psnap .drive),
    (0x18#32, .psnap .color), (0x19#32, .psnap .toneCutoff),
    (0x20#32, .sr), (0x21#32, .nch), (0x22#32, .status), (0x30#32, .phase), (0x31#32, .phaseDelta), (0x32#32, .curFreq),
    (0x33#32, .tgtFreq), (0x34#32, .glideRem), (0x35#32, .toneZ0), (0x36#32, .toneZ1),
    (0x40#32, .envStage), (0x41#32, .envLevel), (0x42#32, .envRelStart)]

theorem regOfAddr_of_mem_regMap : ∀ e ∈ regMap, regOfAddr e.1 = some e.2 := by decide

/-- Addresses 0x0A to 0x0F follow the ten cells, and no index from 10 on is a parameter's. -/
theorem regOfAddr_past_pcell {a : Word} (h : 0x0A#32 ≤ a) (h' : a ≤ 0x0F#32) : regOfAddr a = none := by
  rw [regOfAddr, if_pos (by bv_omega), paramOfIndex_eq_none (by bv_omega), Option.map_none]

/-- Addresses 0x1A to 0x1F follow the ten snapshot cells. -/
theorem regOfAddr_past_psnap {a : Word} (h : 0x1A#32 ≤ a) (h' : a ≤ 0x1F#32) : regOfAddr a = none := by
  rw [regOfAddr, if_neg (by bv_omega), if_pos (by bv_omega), paramOfIndex_eq_none (by bv_omega), Option.map_none]

/-- From 0x20 on the map has three runs of registers, ending before 0x23, 0x37 and 0x43. -/
theorem regOfAddr_between_runs {a : Word}
    (h : (0x23#32 ≤ a ∧ a ≤ 0x2F#32) ∨ (0x37#32 ≤ a ∧ a ≤ 0x3F#32) ∨ 0x43#32 ≤ a) : regOfAddr a = none := by
  rw [regOfAddr, if_neg (by bv_omega), if_neg (by bv_omega)]
  have hn : (0x23 ≤ a.toNat ∧ a.toNat ≤ 0x2F) ∨ (0x37 ≤ a.toNat ∧ a.toNat ≤ 0x3F) ∨ 0x43 ≤ a.toNat := h
  split
  case h_14 => rfl
  all_goals omega

/-! ### READ_REG, mapped and unmapped -/

/-- An answered transaction changes no register READ_REG can name. -/
@[simp] theorem readReg_answer (r : Response) (s : State) (x : Reg) : readReg (answer r s) x = readReg s x := by
  cases x <;> rfl

@[simp] theorem answer_answer (r r' : Response) (s : State) : answer r (answer r' s) = answer r s := rfl

/-- A fault raised again finds its record made. -/
@[simp] theorem raiseFault_raiseFault (c : FaultCause) (s : State) : raiseFault c (raiseFault c s) = raiseFault c s := by
  rw [raiseFault_eq, raiseFault_fault, if_pos rfl, raiseFault_eq]

/-- Settles O17: an address of each of the five gaps has no register, so READ_REG raises BAD_REG_ADDRESS. -/
theorem unmappedAddressRecordsBadRegAddress : Obligations.UnmappedAddressRecordsBadRegAddress := by
  intro a s ha
  have hnone : regOfAddr a = none := by
    rcases ha with ⟨h, h'⟩ | ⟨h, h'⟩ | h | h | ⟨h, -⟩
    · exact regOfAddr_past_pcell h h'
    · exact regOfAddr_past_psnap h h'
    · exact regOfAddr_between_runs (.inl h)
    · exact regOfAddr_between_runs (.inr (.inl h))
    · exact regOfAddr_between_runs (.inr (.inr h))
  rw [exec_readReg_none hnone, raiseFault_eq]
  rfl

/-- Settles O21: the table is the register map with each register as READ_REG returns it. -/
theorem readRegReturnsTheMappedRegister : Obligations.ReadRegReturnsTheMappedRegister := by
  intro s e he
  -- NCH and ENV_STAGE are tabulated by their codes: the two lists agree at each channel count and stage
  have hmap : e ∈ regMap.map fun m => (m.1, readReg s m.2) := by
    obtain ⟨_, _, _, nch, _, ⟨stage, _, _⟩, _, _, _, _, _, _⟩ := s
    cases nch <;> cases stage <;> exact he
  obtain ⟨m, hm, rfl⟩ := List.mem_map.1 hmap
  exact exec_readReg_some (regOfAddr_of_mem_regMap m hm) s

/-- Settles O23: the first read writes the response, and the fault record where the address is unmapped; the second finds both. -/
theorem readRegIsIdempotent : Obligations.ReadRegIsIdempotent := by
  intro a s
  cases h : regOfAddr a with
  | none => exact ⟨_, exec_readReg_none h s, by rw [exec_readReg_none h, raiseFault_raiseFault]⟩
  | some r => exact ⟨_, exec_readReg_some h s, by rw [exec_readReg_some h, readReg_answer, answer_answer]⟩

end Sys2Proof.Machine

/-!
PROOF. The encoding (30_encoding): the encoder and the decoder undo each other on the words of a row (R91 to R94, R98), a malformed word
records its fault and nothing else (R95, R96), and LOAD_PRESET's expansion writes every cell (R102).
-/

namespace Sys2Proof

/-! ### The opcode field -/

theorem ofBits_eq_some_iff_code (b : BitVec 4) (o : Opcode) : Opcode.ofBits b = some o ↔ b = o.code := by
  revert b; cases o <;> decide

theorem ofBits_of_reserved {b : BitVec 4} (h : 0x9#4 ≤ b) : Opcode.ofBits b = none := by
  revert b; decide

theorem code_shiftLeft (o : Opcode) : o.code.setWidth 32 <<< 28 = Machine.rowMatch o := by cases o <;> decide

theorem rowMatch_opcode_field (o : Opcode) : (Machine.rowMatch o).extractLsb' 28 4 = o.code := by cases o <;> decide

/-- The must-be-zero bits are the bits of the row's mask below the opcode (R98). -/
theorem rowMask_and_below_opcode (o : Opcode) : Machine.rowMask o &&& 0x0FFFFFFF#32 = o.mbzMask := by cases o <;> decide

/-! ### The operand field -/

/-- A field operand fits its field. -/
theorem toNat_operandField_lt (c : Word) (k : Nat) (hk : k < 32) : ((c.extractLsb' 0 k).setWidth 32).toNat < 2 ^ k := by
  rw [BitVec.toNat_setWidth_of_le (by omega)]
  exact (c.extractLsb' 0 k).isLt

/-- A value that fits its field is read back from the command word's low bits, below the opcode (R91, R92). -/
theorem operandField_code_or_of_lt (b : BitVec 4) {n : Word} {k : Nat} (hk : k ≤ 28) (hn : n.toNat < 2 ^ k) :
    (((b.setWidth 32 <<< 28) ||| n).extractLsb' 0 k).setWidth 32 = n := by
  apply BitVec.eq_of_getLsbD_eq
  intro i hi
  by_cases h : i < k
  · simp [h, hi, show i < 28 by omega]
  · have : n.getLsbD i = false := Nat.testBit_lt_two_pow (hn.trans_le (Nat.pow_le_pow_right (by decide) (by omega)))
    simp [h, this]

/-- The low bits of a word are the word without its other bits. -/
theorem operandField_eq_and (c : Word) (k : Nat) : (c.extractLsb' 0 k).setWidth 32 = c &&& ~~~(BitVec.allOnes 32 <<< k) := by
  ext i hi
  by_cases h : i < k <;> simp [h, hi, -BitVec.reduceAllOnes]

/-- The operand field is what the row's mask leaves out of the command word (R94). -/
theorem field_operandsOf (o : Opcode) (c d : Word) : (operandsOf o c d).field = c &&& ~~~Machine.rowMask o := by
  cases o with
  | prepare => exact operandField_eq_and c 2
  | noteOn | noteOff => exact operandField_eq_and c 7
  | writeParam => exact operandField_eq_and c 4
  | readReg => exact operandField_eq_and c 8
  | nop | beginBlock | allSoundOff | tick => exact BitVec.and_zero.symm

/-! ### Encoding and decoding -/

theorem encode_matches_row {i : Instr} (h : i.wellFormed = true) :
    (encode i).cmd &&& Machine.rowMask i.opcode = Machine.rowMatch i.opcode := by
  cases i with
  | nop => exact Laws.RowMatch.nop h
  | prepare n r => exact Laws.RowMatch.prepare n r h
  | beginBlock => exact Laws.RowMatch.beginBlock h
  | noteOn n => exact Laws.RowMatch.noteOn n h
  | noteOff n => exact Laws.RowMatch.noteOff n h
  | allSoundOff => exact Laws.RowMatch.allSoundOff h
  | tick => exact Laws.RowMatch.tick h
  | writeParam i v => exact Laws.RowMatch.writeParam i v h
  | readReg a => exact Laws.RowMatch.readReg a h

theorem operandsOf_encode {i : Instr} (h : i.wellFormed = true) : operandsOf i.opcode (encode i).cmd (encode i).data = i := by
  cases i with
  | prepare n r => exact congrArg (Instr.prepare · r) (operandField_code_or_of_lt _ (by decide) (of_decide_eq_true h))
  | noteOn n => exact congrArg Instr.noteOn (operandField_code_or_of_lt _ (by decide) (of_decide_eq_true h))
  | noteOff n => exact congrArg Instr.noteOff (operandField_code_or_of_lt _ (by decide) (of_decide_eq_true h))
  | writeParam n v => exact congrArg (Instr.writeParam · v) (operandField_code_or_of_lt _ (by decide) (of_decide_eq_true h))
  | readReg a => exact congrArg Instr.readReg (operandField_code_or_of_lt _ (by decide) (of_decide_eq_true h))
  | nop | beginBlock | allSoundOff | tick => rfl

theorem wellFormed_operandsOf (o : Opcode) (c d : Word) : (operandsOf o c d).wellFormed = true := by
  cases o with
  | prepare => exact decide_eq_true (toNat_operandField_lt c 2 (by decide))
  | noteOn | noteOff => exact decide_eq_true (toNat_operandField_lt c 7 (by decide))
  | writeParam => exact decide_eq_true (toNat_operandField_lt c 4 (by decide))
  | readReg => exact decide_eq_true (toNat_operandField_lt c 8 (by decide))
  | nop | beginBlock | allSoundOff | tick => rfl

/-- A command word that matches a row is the row's match word with the operand field below it. -/
theorem encode_operandsOf_cmd {o : Opcode} {c : Word} (h : c &&& Machine.rowMask o = Machine.rowMatch o) (d : Word) :
    (encode (operandsOf o c d)).cmd = c := by
  rw [encode, opcode_operandsOf, code_shiftLeft, field_operandsOf, ← h, ← BitVec.and_or_distrib_left, BitVec.or_not_self,
    BitVec.and_allOnes]

theorem encode_operandsOf_data {o : Opcode} (h : o = .prepare ∨ o = .writeParam) (c d : Word) :
    (encode (operandsOf o c d)).data = d := by
  rcases h with rfl | rfl <;> rfl

theorem operandsOf_data_irrel {o : Opcode} (h1 : o ≠ .prepare) (h2 : o ≠ .writeParam) (c d d' : Word) :
    operandsOf o c d = operandsOf o c d' := by
  cases o with
  | prepare => contradiction
  | writeParam => contradiction
  | nop | beginBlock | noteOn | noteOff | allSoundOff | tick | readReg => rfl

/-- No two rows of the opcode map overlap: a row fixes its opcode (R94). -/
theorem row_unique {w : Word} {o o' : Opcode} (h : w &&& Machine.rowMask o = Machine.rowMatch o)
    (h' : w &&& Machine.rowMask o' = Machine.rowMatch o') : o = o' := by
  have ho := ((matches_row_iff w o).1 h).1
  have ho' := ((matches_row_iff w o').1 h').1
  exact Option.some.inj (ho.symm.trans ho')

/-- A reserved opcode is refused before the must-be-zero bits are looked at (R95, R98). -/
theorem decode_of_reserved {t : Transaction} (h : 0x9#4 ≤ t.cmd.extractLsb' 28 4) : decode t = .error .illegalOpcode := by
  rw [decode, ofBits_of_reserved h]

theorem decode_of_mbz {t : Transaction} {o : Opcode} (ho : t.cmd.extractLsb' 28 4 = o.code) (hz : t.cmd &&& o.mbzMask ≠ 0#32) :
    decode t = .error .mbzNonzero := by
  rw [decode, (ofBits_eq_some_iff_code _ o).2 ho]
  exact if_neg hz

end Sys2Proof

namespace Sys2Proof.Machine

/-! ### Steps -/

theorem step_of_error {s s' : State} {t : Transaction} {c : FaultCause} (h : takeTransaction s = some (t, s'))
    (hd : decode t = .error c) : step s = .next (raiseFault c s') := by
  simp only [step, h, hd]

theorem step_of_ok {s s' : State} {t : Transaction} {i : Instr} (h : takeTransaction s = some (t, s'))
    (hd : decode t = .ok i) : step s = exec i s' := by
  simp only [step, h, hd]

theorem step_of_none {s : State} (h : takeTransaction s = none) : step s = .next s := by
  simp only [step, h]

/-! ### LOAD_PRESET as ten writes -/

/-- The parameters in index order (10_state R33). -/
def paramsInOrder : List Param :=
  [.gain, .attack, .decay, .sustain, .release, .pitchSemitones, .glideTime, .drive, .color, .toneCutoff]

theorem mem_paramsInOrder (p : Param) : p ∈ paramsInOrder := by cases p <;> decide

theorem paramOfIndex_indexOfParam (p : Param) : paramOfIndex (BitVec.ofNat 32 (indexOfParam p)) = some p := by cases p <;> rfl

/-- The WRITE_PARAM that loads one parameter from a preset (30_encoding R102). -/
def presetWrite (values : Params) (p : Param) : Instr := .writeParam (BitVec.ofNat 32 (indexOfParam p)) (getParam values p)

theorem expand_loadPreset (values : Params) : (Pseudo.loadPreset values).expand = paramsInOrder.map (presetWrite values) := rfl

/-- The cells after conditioned writes of a preset's values to the listed parameters. -/
def writeCells (values : Params) (ps : List Param) (cells : Params) : Params :=
  ps.foldl (fun cells p => setParam cells p (condValue p (getParam values p))) cells

/-- Each listed cell holds its conditioned value, however often it is listed; every other cell is kept. -/
theorem getParam_writeCells (values : Params) (q : Param) (ps : List Param) (cells : Params) :
    getParam (writeCells values ps cells) q = if q ∈ ps then condValue q (getParam values q) else getParam cells q := by
  induction ps generalizing cells with
  | nil => rfl
  | cons p ps ih =>
    rw [writeCells, List.foldl_cons, ← writeCells, ih]
    by_cases hq : q = p
    · subst hq; simp
    · simp [hq, getParam_setParam_of_ne hq]

theorem runInstrs_cons_of_next {i : Instr} {s t : State} (h : exec i s = .next t) (is : List Instr) :
    runInstrs (i :: is) s = runInstrs is t := by
  simp only [runInstrs, h]

theorem exec_presetWrite {values : Params} {p : Param} (hv : isNaN (getParam values p) = false) (s : State) :
    exec (presetWrite values p) s = .next (answerNone { s with pcell := writeCells values [p] s.pcell }) := by
  rw [presetWrite, exec_writeParam, writeCell_of_number (paramOfIndex_indexOfParam p) hv]
  rfl

/-- Writes of numbers, one or more of them, run to the end: the cells are written and the last write's response stands. -/
theorem runInstrs_presetWrites {values : Params} (hv : ∀ p, isNaN (getParam values p) = false) (p : Param) (ps : List Param)
    (s : State) :
    runInstrs ((p :: ps).map (presetWrite values)) s = some (answerNone { s with pcell := writeCells values (p :: ps) s.pcell }) := by
  rw [List.map_cons, runInstrs_cons_of_next (exec_presetWrite (hv p) s)]
  induction ps generalizing p s with
  | nil => rfl
  | cons q qs ih =>
    rw [List.map_cons, runInstrs_cons_of_next (exec_presetWrite (hv q) _)]
    exact ih q _

/-! ### The obligations -/

/-- Settles O1: the encoded word matches the instruction's row, and each operand is read back from its field. -/
theorem decodeOfEncodeIsTheInstruction : Obligations.DecodeOfEncodeIsTheInstruction :=
  fun i h => decode_eq_ok_iff.2 ⟨i.opcode, encode_matches_row h, (operandsOf_encode h).symm⟩

/-- Settles O2: the decoder read the operands of the row the word matches, which with the match word make up the word. -/
theorem decodedInstructionKeepsTheWords : Obligations.DecodedInstructionKeepsTheWords := by
  intro t i h
  obtain ⟨o, hrow, rfl⟩ := decode_eq_ok_iff.1 h
  refine ⟨wellFormed_operandsOf o _ _, encode_operandsOf_cmd hrow _, fun ho => ?_⟩
  rw [opcode_operandsOf] at ho
  exact encode_operandsOf_data ho _ _

/-- Settles O3: the decoder answers exactly on the words that match a row, and the row's opcode is the instruction's. -/
theorem commandWordEncodesExactlyItsRow : Obligations.CommandWordEncodesExactlyItsRow := by
  refine ⟨fun t o => ⟨fun h => ?_, ?_⟩, fun _ _ _ => row_unique⟩
  · exact ⟨_, decode_eq_ok_iff.2 ⟨o, h, rfl⟩, opcode_operandsOf o _ _⟩
  · rintro ⟨i, hi, rfl⟩
    obtain ⟨o, hrow, rfl⟩ := decode_eq_ok_iff.1 hi
    rwa [opcode_operandsOf]

/-- Settles O4: the decoder refuses a reserved opcode, and the step records the refusal. -/
theorem reservedOpcodeRecordsIllegalOpcode : Obligations.ReservedOpcodeRecordsIllegalOpcode := by
  intro s s' t h hres
  rw [step_of_error h (decode_of_reserved hres), raiseFault_eq]
  rfl

/-- Settles O5: the row's mask below the opcode is what the decoder requires to be zero. -/
theorem mbzBitRecordsMbzNonzero : Obligations.MbzBitRecordsMbzNonzero := by
  intro s s' t o h ho hz
  rw [rowMatch_opcode_field] at ho
  rw [BitVec.and_assoc, rowMask_and_below_opcode] at hz
  rw [step_of_error h (decode_of_mbz ho hz), raiseFault_eq]
  rfl

/-- Settles O6: the decoder looks at the data word only for the operands of PREPARE and WRITE_PARAM. -/
theorem unusedDataWordHasNoEffect : Obligations.UnusedDataWordHasNoEffect := by
  intro c d d' hprep hwrite
  simp only [decode]
  cases ho : Opcode.ofBits (c.extractLsb' 28 4) with
  | none => rfl
  | some o =>
    have hcode := (ofBits_eq_some_iff_code _ o).1 ho
    have h1 : o ≠ .prepare := by rintro rfl; exact hprep hcode
    have h2 : o ≠ .writeParam := by rintro rfl; exact hwrite hcode
    simp only [operandsOf_data_irrel h1 h2 c d d']

/-- Settles O8 by running the decoder on the nine words. -/
theorem exampleWordsDecode : Obligations.ExampleWordsDecode := by
  unfold Obligations.ExampleWordsDecode
  decide

/-- Settles O9: the expansion is one write per parameter in index order, so no cell is left unwritten. -/
theorem loadPresetConditionsEveryCell : Obligations.LoadPresetConditionsEveryCell := by
  intro values s hv
  refine ⟨_, runInstrs_presetWrites hv .gain paramsInOrder.tail s, fun p => ?_, rfl⟩
  rw [answerNone_pcell, getParam_writeCells]
  exact if_pos (mem_paramsInOrder p)

/-- Settles O13: nothing pending, a malformed word and every command each have a next state. -/
theorem everyStepAnswersANextState : Obligations.EveryStepAnswersANextState := by
  intro s
  cases h : takeTransaction s with
  | none => exact ⟨_, step_of_none h⟩
  | some p =>
    cases hd : decode p.1 with
    | error c => exact ⟨_, step_of_error h hd⟩
    | ok i => rw [step_of_ok h hd]; exact exec_answers i p.2

end Sys2Proof.Machine

/-!
PROOF. The parameters (40_parameters): what WRITE_PARAM ignores (R121, R122), the snapshot BEGIN_BLOCK takes (R123), the commands that
cannot see the cells (R124, R125), and what the four register commands leave alone.
-/

namespace Sys2Proof.Machine

/-! ### Writes that are ignored -/

/-- An index of 10 or more names no cell (R122). -/
theorem writeCell_of_index_ge {i : Word} (h : 10 ≤ i.toNat) (v : F) (cells : Params) : writeCell i v cells = cells := by
  simp only [writeCell, paramOfIndex_eq_none h]

/-- A NaN is not stored, whatever the index (R121). -/
theorem writeCell_of_nan {v : F} (h : isNaN v = true) (i : Word) (cells : Params) : writeCell i v cells = cells := by
  unfold writeCell
  split
  · rfl
  · exact if_pos h

/-! ### Replacing the cells before a command or after it

The operations of the six commands that do not touch the cells commute with a replacement of the cells. -/

theorem raiseFault_withCells (c : FaultCause) (s : State) (cells : Params) :
    raiseFault c { s with pcell := cells } = { raiseFault c s with pcell := cells } := by
  rw [raiseFault_eq, raiseFault_eq]

theorem noteOnWith_withCells (u : MathUnits) (n : Word) (s : State) (cells : Params) :
    noteOnWith u n { s with pcell := cells } = { noteOnWith u n s with pcell := cells } := by
  have hsr : srValid { s with pcell := cells } = srValid s := rfl
  cases hv : srValid s with
  | true => rw [noteOnWith_enabled u n hv, noteOnWith_enabled u n (hsr.trans hv)]; rfl
  | false => rw [noteOnWith_disabled u n hv, noteOnWith_disabled u n (hsr.trans hv)]; rfl

theorem tickWith_withCells (u : MathUnits) (s : State) (cells : Params) :
    tickWith u { s with pcell := cells } = { tickWith u s with pcell := cells } := by
  have hsr : srValid { s with pcell := cells } = srValid s := rfl
  cases hv : srValid s with
  | true => rw [tickWith_enabled u hv, tickWith_enabled u (hsr.trans hv)]; rfl
  | false => rw [tickWith_disabled u hv, tickWith_disabled u (hsr.trans hv)]; rfl

/-- NOTE_OFF and ALL_SOUND_OFF write the envelope alone, and only while SR_VALID, which does not look at the cells. -/
theorem writeEnvIfValid_withCells (e : Env) (s : State) (cells : Params) :
    (if srValid { s with pcell := cells } then answerNone { s with pcell := cells, env := e }
      else answerNone { s with pcell := cells }) =
      { (if srValid s then answerNone { s with env := e } else answerNone s) with pcell := cells } := by
  have hsr : srValid { s with pcell := cells } = srValid s := rfl
  rw [hsr]
  cases srValid s with
  | true => rfl
  | false => rfl

/-! ### The obligations -/

/-- Settles O27: each of the six commands does the same before and after the cells are replaced. -/
theorem datapathReadsOnlyTheSnapshot : Obligations.DatapathReadsOnlyTheSnapshot := by
  intro i s t cells hbegin hread hwrite h
  cases i with
  | beginBlock => exact absurd rfl hbegin
  | readReg a => exact absurd rfl hread
  | writeParam j v => exact absurd rfl hwrite
  | nop => rw [exec_nop] at h ⊢; cases h; rfl
  | prepare n r =>
    cases hc : channelsOfCount n with
    | none => rw [exec_prepare_none hc] at h ⊢; cases h; rw [raiseFault_withCells]
    | some c => rw [exec_prepare_some hc] at h ⊢; cases h; rfl
  | noteOn n => rw [exec_noteOn] at h ⊢; cases h; rw [noteOnWith_withCells]
  | noteOff n => rw [exec_noteOff] at h ⊢; cases h; rw [← writeEnvIfValid_withCells]
  | allSoundOff => rw [exec_allSoundOff] at h ⊢; cases h; rw [← writeEnvIfValid_withCells]
  | tick => rw [exec_tick] at h ⊢; cases h; rw [tickWith_withCells]

/-- Settles O56: each command writes the response, and beyond it WRITE_PARAM the cells, BEGIN_BLOCK the snapshot, and READ_REG the
fault record where the address is unmapped. -/
theorem frameOfTheRegisterCommands : Obligations.FrameOfTheRegisterCommands := by
  intro i s t hi h
  cases i with
  | nop => rw [exec_nop] at h; cases h; simp
  | readReg a =>
    cases hr : regOfAddr a with
    | none => rw [exec_readReg_none hr] at h; cases h; simp [Instr.opcode]
    | some r => rw [exec_readReg_some hr] at h; cases h; simp
  | writeParam j v => rw [exec_writeParam] at h; cases h; simp [Instr.opcode]
  | beginBlock => rw [exec_beginBlock] at h; cases h; simp [Instr.opcode]
  | prepare | noteOn | noteOff | allSoundOff | tick => simp [Instr.opcode] at hi

/-- Settles O25: the write leaves the cells as they are, so only the response is written. -/
theorem writeParamOutsideTheSetDoesNothing : Obligations.WriteParamOutsideTheSetDoesNothing := by
  intro i v s h
  have hcells : writeCell i v s.pcell = s.pcell := by
    rcases h with hi | hv
    · exact writeCell_of_index_ge hi v s.pcell
    · exact writeCell_of_nan hv i s.pcell
  rw [exec_writeParam, hcells]
  rfl

/-- Settles O26: the snapshot becomes the cells, all ten in one update. -/
theorem beginBlockCopiesEveryCell : Obligations.BeginBlockCopiesEveryCell :=
  fun s => ⟨_, exec_beginBlock s, fun _ => rfl, rfl⟩

end Sys2Proof.Machine

/-!
PROOF. The envelope generator (41_envelope_adsr) and the note commands that drive it (42_voice_control): the step of each stage as TICK
shows it (R148 to R152), the direction of the ramps (R153, R155), and what NOTE_ON, NOTE_OFF and ALL_SOUND_OFF write and leave alone.
-/

namespace Sys2Proof.Machine

/-! ### The envelope of a TICK -/

/-- An enabled TICK takes one envelope step (43_render_tick R190). -/
theorem exec_tick_env {s : State} (h : srValid s = true) :
    ∃ t, exec .tick s = .next t ∧ t.env = envNextSample s.psnap s.sr s.env :=
  ⟨_, exec_tick s, by rw [tickWith_enabled _ h]; rfl⟩

section
variable (p : Params) (sr : F) {e : Env}

theorem envNextSample_of_idle (h : e.stage = .idle) : envNextSample p sr e = { e with level := fZero } := by
  simp only [envNextSample, h, stepIdle]

theorem envNextSample_of_attack (h : e.stage = .attack) : envNextSample p sr e = stepAttack p sr e := by
  simp only [envNextSample, h]

theorem envNextSample_of_decay (h : e.stage = .decay) : envNextSample p sr e = stepDecay p sr e := by
  simp only [envNextSample, h]

theorem envNextSample_of_sustain (h : e.stage = .sustain) : envNextSample p sr e = { e with level := p.sustain } := by
  simp only [envNextSample, h, stepSustain]

theorem envNextSample_of_release (h : e.stage = .release) : envNextSample p sr e = stepRelease p sr e := by
  simp only [envNextSample, h]

end

/-! ### The ramps, with a stage's two ways to end as one condition -/

/-- What ATTACK adds to the level in one step (R149). -/
def attackIncrement (p : Params) (sr : F) : F := fdiv fOne (fmul p.attack sr)

/-- What DECAY takes from the level in one step (R150). -/
def decayDecrement (p : Params) (sr : F) : F := fdiv (fsub fOne p.sustain) (fmul p.decay sr)

/-- What RELEASE takes from the level in one step, from the level the release began at (R152). -/
def releaseDecrement (p : Params) (sr relStart : F) : F := fdiv relStart (fmul p.release sr)

theorem stepAttack_eq_ite (p : Params) (sr : F) (e : Env) :
    stepAttack p sr e =
      if feq (fmul p.attack sr) fZero || fge (fadd e.level (attackIncrement p sr)) fOne then { e with level := fOne, stage := .decay }
      else { e with level := fadd e.level (attackIncrement p sr) } := by
  simp only [stepAttack, attackIncrement, Bool.or_eq_true, ite_or]

theorem stepDecay_eq_ite (p : Params) (sr : F) (e : Env) :
    stepDecay p sr e =
      if feq (fmul p.decay sr) fZero || fle (fsub e.level (decayDecrement p sr)) p.sustain then
        { e with level := p.sustain, stage := .sustain }
      else { e with level := fsub e.level (decayDecrement p sr) } := by
  simp only [stepDecay, decayDecrement, Bool.or_eq_true, ite_or]

theorem stepRelease_eq_ite (p : Params) (sr : F) (e : Env) :
    stepRelease p sr e =
      if feq (fmul p.release sr) fZero || fle (fsub e.level (releaseDecrement p sr e.relStart)) fZero then
        { e with level := fZero, stage := .idle }
      else { e with level := fsub e.level (releaseDecrement p sr e.relStart) } := by
  simp only [stepRelease, releaseDecrement, Bool.or_eq_true, ite_or]

/-! ### The steps are not negative -/

/-- A part of full scale over a stage's denominator is a number that is not negative, the denominator's overflow included (R153). -/
theorem rampStep_nonneg {q : Param} {x v sr : F} (hx : inUnit x) (hq : 0 < fUnits (paramLo q)) (hv : inRange q v)
    (hsr : rateValid sr = true) : isNaN (fdiv x (fmul v sr)) = false ∧ 0 ≤ fUnits (fdiv x (fmul v sr)) := by
  obtain ⟨hden, hpos⟩ := denominator_pos hq hv hsr
  obtain ⟨-, hx0, -⟩ := inUnit_iff.1 hx
  exact fdiv_nonneg (isFinite_of_inUnit hx) hden hx0 hpos

/-- The way from full scale down to a level is a part of full scale. -/
theorem inUnit_fsub_one {x : F} (h : inUnit x) : inUnit (fsub fOne x) := by
  obtain ⟨hx, h0, h1⟩ := inUnit_iff.1 h
  have hone : isFinite fOne = true ∧ fUnits fOne = 2 ^ 149 := by decide +kernel
  obtain ⟨hn, hv⟩ := fsub_finite hone.1 (isFinite_of_inUnit h)
  obtain ⟨-, hle⟩ := fsub_le hone.1 hx h0
  rw [hone.2] at hv hle
  exact inUnit_iff.2 ⟨hn, hv ▸ roundInt_nonneg (by omega), hle⟩

theorem fle_fadd_of_nonneg {a b : F} (ha : inUnit a) (hb : isNaN b = false ∧ 0 ≤ fUnits b) : fle a (fadd a b) = true := by
  obtain ⟨hn, hle⟩ := fadd_ge (isFinite_of_inUnit ha) hb.1 hb.2
  exact fle_iff.2 ⟨isNaN_of_isFinite (isFinite_of_inUnit ha), hn, hle⟩

theorem fsub_fle_of_nonneg {a b : F} (ha : inUnit a) (hb : isNaN b = false ∧ 0 ≤ fUnits b) : fle (fsub a b) a = true := by
  obtain ⟨hn, hle⟩ := fsub_le (isFinite_of_inUnit ha) hb.1 hb.2
  exact fle_iff.2 ⟨hn, isNaN_of_isFinite (isFinite_of_inUnit ha), hle⟩

/-! ### The ramps are monotone -/

section
variable {p : Params} {sr : F} {e : Env} (hp : ParamsInRange p) (hsr : rateValid sr = true)
include hp hsr

theorem stepAttack_level_ge (hl : inUnit e.level) : fle e.level (stepAttack p sr e).level = true := by
  rw [stepAttack_eq_ite]
  split
  · exact hl.2
  · exact fle_fadd_of_nonneg hl (rampStep_nonneg inUnit_one (by decide +kernel) (hp .attack) hsr)

/-- DECAY ends at P_sustain, which is no rise from a level not below it. -/
theorem stepDecay_level_le (hl : inUnit e.level) (hs : fle p.sustain e.level = true) :
    fle (stepDecay p sr e).level e.level = true := by
  rw [stepDecay_eq_ite]
  split
  · exact hs
  · exact fsub_fle_of_nonneg hl (rampStep_nonneg (inUnit_fsub_one (hp .sustain)) (by decide +kernel) (hp .decay) hsr)

theorem stepRelease_level_le (hl : inUnit e.level) (hr : inUnit e.relStart) : fle (stepRelease p sr e).level e.level = true := by
  rw [stepRelease_eq_ite]
  split
  · exact hl.1
  · exact fsub_fle_of_nonneg hl (rampStep_nonneg hr (by decide +kernel) (hp .release) hsr)

end

/-! ### An overflowed attack denominator (R155) -/

/-- A finite value over an infinity is a zero. -/
theorem fdiv_inf {a b : F} (ha : isFinite a = true) (hb : isInf b = true) : fdiv a b = packF (fSign a != fSign b) 0 := by
  simp [fdiv, isNaN_of_isFinite ha, isNaN_of_isInf hb, isInf_of_isFinite ha, hb]

/-- Adding a zero of either sign keeps the value. -/
theorem fadd_packF_zero {a : F} (ha : isFinite a = true) (neg : Bool) :
    isNaN (fadd a (packF neg 0)) = false ∧ fUnits (fadd a (packF neg 0)) = fUnits a := by
  have hz : isFinite (packF neg 0) = true ∧ fUnits (packF neg 0) = 0 := by cases neg <;> decide +kernel
  obtain ⟨hn, hv⟩ := fadd_finite ha hz.1
  rw [hz.2, Int.add_zero, roundInt_fUnits (isNaN_of_isFinite ha)] at hv
  exact ⟨hn, hv⟩

theorem feq_fZero_of_isInf {x : F} (h : isInf x = true) : feq x fZero = false := by
  rw [Bool.eq_false_iff, Ne, feq_fZero_iff]
  rintro (rfl | rfl) <;> revert h <;> decide +kernel

/-- The increment is then a zero, so a level below 1.0 neither ends the stage nor moves. -/
theorem stepAttack_of_overflow {p : Params} {sr : F} {e : Env} (hl : isFinite e.level = true) (h1 : flt e.level fOne = true)
    (hinf : isInf (fmul p.attack sr) = true) :
    (stepAttack p sr e).stage = e.stage ∧ feq (stepAttack p sr e).level e.level = true := by
  obtain ⟨hn, hone, hlt⟩ := flt_iff.1 h1
  obtain ⟨hsum, hsame⟩ : isNaN (fadd e.level (attackIncrement p sr)) = false ∧
      fUnits (fadd e.level (attackIncrement p sr)) = fUnits e.level := by
    rw [attackIncrement, fdiv_inf (by decide +kernel) hinf]
    exact fadd_packF_zero hl _
  have hbelow : fge (fadd e.level (attackIncrement p sr)) fOne = false := by
    rw [Bool.eq_false_iff, Ne, fge, fle_iff, hsame]
    rintro ⟨-, -, hge⟩
    omega
  rw [stepAttack_eq_ite, feq_fZero_of_isInf hinf, hbelow]
  exact ⟨rfl, feq_iff.2 ⟨hsum, hn, hsame⟩⟩

/-! ### The note commands -/

theorem exec_noteOff_enabled (n : Word) {s : State} (h : srValid s = true) :
    exec (.noteOff n) s = .next (answerNone { s with env := envNoteOff s.env }) := by
  rw [exec_noteOff, if_pos h]

theorem exec_allSoundOff_enabled {s : State} (h : srValid s = true) :
    exec .allSoundOff s = .next (answerNone { s with env := Env.zero }) := by
  rw [exec_allSoundOff, if_pos h]

theorem envNoteOff_eq_ite (e : Env) :
    envNoteOff e =
      if e.stage = .idle ∨ e.stage = .release then e else { stage := .release, level := e.level, relStart := e.level } := by
  obtain ⟨stage, level, relStart⟩ := e
  cases stage <;> rfl

@[simp] theorem envNoteOff_level (e : Env) : (envNoteOff e).level = e.level := by
  rw [envNoteOff_eq_ite]
  split <;> rfl

/-- A zero count snaps, any other glides (42_voice_control R172). -/
theorem voiceNoteOn_eq_ite (p : Params) (sr tgt : F) (v : Voice) :
    voiceNoteOn p sr tgt v =
      if noteGlide p sr v = 0#32 then { v with tgtFreq := tgt, curFreq := tgt, glideRem := 0#32, phaseDelta := deltaOf tgt sr }
      else { v with tgtFreq := tgt, glideRem := noteGlide p sr v } := by
  rcases voiceNoteOn_cases p sr tgt v with ⟨hpos, h⟩ | ⟨h0, h⟩
  · rw [h, if_neg (by bv_omega)]
  · rw [h, if_pos h0]

section
variable (p : Params) (sr tgt : F) (v : Voice)

@[simp] theorem voiceNoteOn_phase : (voiceNoteOn p sr tgt v).phase = v.phase := by
  rw [voiceNoteOn_eq_ite]; split <;> rfl
@[simp] theorem voiceNoteOn_toneZ0 : (voiceNoteOn p sr tgt v).toneZ0 = v.toneZ0 := by
  rw [voiceNoteOn_eq_ite]; split <;> rfl
@[simp] theorem voiceNoteOn_toneZ1 : (voiceNoteOn p sr tgt v).toneZ1 = v.toneZ1 := by
  rw [voiceNoteOn_eq_ite]; split <;> rfl

end

/-- NOTE_ON, enabled or not, writes the voice, the stage and the response at most. -/
theorem noteOnWith_cases (u : MathUnits) (n : Word) (s : State) :
    noteOnWith u n s = answerNone s ∨
      ∃ tgt, noteOnWith u n s = answerNone { s with voice := voiceNoteOn s.psnap s.sr tgt s.voice, env := envNoteOn s.env } := by
  cases h : srValid s with
  | true => exact .inr ⟨_, noteOnWith_enabled u n h⟩
  | false => exact .inl (noteOnWith_disabled u n h)

/-! ### The obligations -/

/-- Settles O41: what a ramp adds or takes is not negative, and where it ends it lands on 1.0, P_sustain or 0. -/
theorem envelopeRampsAreMonotone : Obligations.EnvelopeRampsAreMonotone := by
  intro s hv hp he
  obtain ⟨t, ht, htenv⟩ := exec_tick_env hv
  obtain ⟨hl, hr, -⟩ := he
  refine ⟨t, ht, fun hst => ?_, fun hst hs => ?_, fun hst => ?_⟩
  · rw [htenv, envNextSample_of_attack _ _ hst]
    exact stepAttack_level_ge hp hv hl
  · rw [htenv, envNextSample_of_decay _ _ hst]
    exact stepDecay_level_le hp hv hl hs
  · rw [htenv, envNextSample_of_release _ _ hst]
    exact stepRelease_level_le hp hv hl hr

/-- Settles O42: 1.0 over an infinity is a zero. -/
theorem overflowedAttackHoldsTheLevel : Obligations.OverflowedAttackHoldsTheLevel := by
  intro s hv _ he hst h1 hinf
  obtain ⟨t, ht, htenv⟩ := exec_tick_env hv
  obtain ⟨hstage, hlevel⟩ := stepAttack_of_overflow (isFinite_of_inUnit he.1) h1 hinf
  rw [← envNextSample_of_attack _ _ hst, ← htenv] at hstage hlevel
  exact ⟨t, ht, hstage.trans hst, hlevel⟩

/-- Settles O57: disabled, each of the three writes the response alone; enabled, NOTE_ON writes the voice and the stage, the other two
the envelope. -/
theorem frameOfTheNoteCommands : Obligations.FrameOfTheNoteCommands := by
  intro i s t hi h
  cases i with
  | noteOn n =>
    rw [exec_noteOn] at h
    cases h
    rcases noteOnWith_cases units n s with e | ⟨tgt, e⟩
    · simp [e, Instr.opcode]
    · simp [e, Instr.opcode, envNoteOn]
  | noteOff n =>
    rw [exec_noteOff] at h
    cases h
    split <;> simp [Instr.opcode]
  | allSoundOff =>
    rw [exec_allSoundOff] at h
    cases h
    split <;> simp [Instr.opcode]
  | nop | prepare | beginBlock | tick | writeParam | readReg => simp [Instr.opcode] at hi

/-- Settles O30: the glide length written out is `noteGlide`, and its being zero decides between snap and glide. -/
theorem noteOnSetsTheTargetAndGlidesOrSnaps : Obligations.NoteOnSetsTheTargetAndGlidesOrSnaps := by
  intro n s hv p tgt r
  rw [exec_noteOn, noteOnWith_enabled _ _ hv, voiceNoteOn_eq_ite]
  rfl

/-- Settles O32: the three sounding stages release, the other two keep the envelope. -/
theorem noteOffReleasesTheVoice : Obligations.NoteOffReleasesTheVoice := by
  intro n s hv
  rw [exec_noteOff_enabled n hv, envNoteOff_eq_ite]
  rfl

/-- Settles O33: the envelope becomes the power-on one, and no other register is written. -/
theorem allSoundOffResetsOnlyTheEnvelope : Obligations.AllSoundOffResetsOnlyTheEnvelope :=
  fun _ hv => exec_allSoundOff_enabled hv

/-- Settles O37: in these two stages the step sets the level alone. -/
theorem idleAndSustainStepsHold : Obligations.IdleAndSustainStepsHold := by
  intro s hv
  obtain ⟨t, ht, htenv⟩ := exec_tick_env hv
  exact ⟨fun hst => ⟨t, ht, htenv.trans (envNextSample_of_idle _ _ hst)⟩,
    fun hst => ⟨t, ht, htenv.trans (envNextSample_of_sustain _ _ hst)⟩⟩

/-- Settles O38: a TICK in ATTACK is one STEP_ATTACK. -/
theorem attackStepRises : Obligations.AttackStepRises := by
  intro s hv hst den l
  obtain ⟨t, ht, htenv⟩ := exec_tick_env hv
  rw [envNextSample_of_attack _ _ hst, stepAttack_eq_ite] at htenv
  exact ⟨t, ht, htenv⟩

/-- Settles O39: a TICK in DECAY is one STEP_DECAY. -/
theorem decayStepFallsToSustain : Obligations.DecayStepFallsToSustain := by
  intro s hv hst den l
  obtain ⟨t, ht, htenv⟩ := exec_tick_env hv
  rw [envNextSample_of_decay _ _ hst, stepDecay_eq_ite] at htenv
  exact ⟨t, ht, htenv⟩

/-- Settles O40: a TICK in RELEASE is one STEP_RELEASE. -/
theorem releaseStepFallsToZero : Obligations.ReleaseStepFallsToZero := by
  intro s hv hst den l
  obtain ⟨t, ht, htenv⟩ := exec_tick_env hv
  rw [envNextSample_of_release _ _ hst, stepRelease_eq_ite] at htenv
  exact ⟨t, ht, htenv⟩

end Sys2Proof.Machine

/-!
PROOF. Voice control (42_voice_control): what PREPARE stores, faults and leaves alone (R170), the first note after it (R267), and the
disabled voice at rest (R177).
-/

namespace Sys2Proof.Machine

/-! ### The channel counts PREPARE accepts -/

theorem channelsOfCount_isSome {n : Word} (h : n = 1#32 ∨ n = 2#32) : ∃ c, channelsOfCount n = some c := by
  rcases h with rfl | rfl
  · exact ⟨.mono, rfl⟩
  · exact ⟨.stereo, rfl⟩

/-! ### A note from the voice at rest -/

/-- A voice that has no frequency yet has nothing to glide from (R172). -/
theorem noteGlide_of_curFreq_zero (p : Params) (sr : F) {v : Voice} (h : v.curFreq = fZero) : noteGlide p sr v = 0#32 := by
  have h0 : fgt fZero fZero = false := by decide +kernel
  simp [noteGlide, h, h0]

theorem noteOnWith_snaps_of_curFreq_zero (u : MathUnits) (n : Word) {s : State} (hv : srValid s = true)
    (h : s.voice.curFreq = fZero) :
    (noteOnWith u n s).voice.curFreq = (noteOnWith u n s).voice.tgtFreq ∧ (noteOnWith u n s).voice.glideRem = 0#32 ∧
      (noteOnWith u n s).env.stage = .attack := by
  rw [noteOnWith_enabled u n hv, voiceNoteOn_eq_ite, if_pos (noteGlide_of_curFreq_zero s.psnap s.sr h)]
  exact ⟨rfl, rfl, rfl⟩

/-! ### The disabled voice -/

/-- A command puts the voice and the envelope at their PREPARE values, or keeps the rate and, while it is not valid, every voice and
envelope register. -/
theorem exec_voice_cases {i : Instr} {s t : State} (h : exec i s = .next t) :
    (t.voice = Voice.zero ∧ t.env = Env.zero) ∨
      t.sr = s.sr ∧ (srValid s = false → t.voice = s.voice ∧ t.env = s.env) := by
  cases i with
  | prepare n r =>
    cases hc : channelsOfCount n with
    | none => rw [exec_prepare_none hc] at h; cases h; right; simp
    | some c => rw [exec_prepare_some hc] at h; cases h; left; simp
  | readReg a =>
    right
    cases hr : regOfAddr a with
    | none => rw [exec_readReg_none hr] at h; cases h; simp
    | some r => rw [exec_readReg_some hr] at h; cases h; simp
  | nop => rw [exec_nop] at h; cases h; right; simp
  | beginBlock => rw [exec_beginBlock] at h; cases h; right; simp
  | writeParam j v => rw [exec_writeParam] at h; cases h; right; simp
  | noteOn n =>
    right
    rw [exec_noteOn] at h; cases h
    cases hv : srValid s with
    | true => simp [noteOnWith_enabled _ _ hv]
    | false => simp [noteOnWith_disabled _ _ hv]
  | noteOff n =>
    right
    rw [exec_noteOff] at h; cases h
    cases hv : srValid s <;> simp
  | allSoundOff =>
    right
    rw [exec_allSoundOff] at h; cases h
    cases hv : srValid s <;> simp
  | tick =>
    right
    rw [exec_tick] at h; cases h
    cases hv : srValid s with
    | true => simp [tickWith_enabled _ hv]
    | false => simp [tickWith_disabled _ hv]

theorem raiseFault_silent (c : FaultCause) {s : State} (hs : SilentWhileDisabled s) : SilentWhileDisabled (raiseFault c s) := by
  simpa [SilentWhileDisabled, srValid] using hs

theorem exec_silent {i : Instr} {s t : State} (hs : SilentWhileDisabled s) (h : exec i s = .next t) : SilentWhileDisabled t := by
  intro hv
  rcases exec_voice_cases h with hzero | ⟨hsr, hkeep⟩
  · exact hzero
  · have hv' : srValid s = false := by rwa [srValid, ← hsr]
    obtain ⟨hvoice, henv⟩ := hkeep hv'
    rw [hvoice, henv]
    exact hs hv'

/-! ### The obligations -/

/-- Settles O35: only a command that resets the voice and the envelope writes the rate, and no other one writes them while disabled. -/
theorem stepKeepsTheDisabledVoiceAtRest : Obligations.StepKeepsTheDisabledVoiceAtRest :=
  fun _ _ hs h => step_keeps (fun _ _ _ _ hp => hp) (fun _ _ _ => exec_silent) (fun c _ => raiseFault_silent c) h hs

/-- Settles O59: PREPARE writes no fault record where it accepts the count, and where it does not it raises a fault and nothing else. -/
theorem frameOfPrepare : Obligations.FrameOfPrepare := by
  intro nchf srw s t h
  by_cases hn : nchf = 1#32 ∨ nchf = 2#32
  · obtain ⟨c, hc⟩ := channelsOfCount_isSome hn
    rw [exec_prepare_some hc] at h
    cases h
    simp [hn]
  · obtain ⟨h1, h2⟩ := not_or.1 hn
    rw [exec_prepare_none (channelsOfCount_eq_none h1 h2)] at h
    cases h
    simp [hn]

/-- Settles O16: the count names no channel layout, so PREPARE raises BAD_CHANNEL_COUNT. -/
theorem badChannelCountChangesOnlyTheRecord : Obligations.BadChannelCountChangesOnlyTheRecord := by
  intro nchf srw s h1 h2
  rw [exec_prepare_none (channelsOfCount_eq_none h1 h2), raiseFault_eq]
  rfl

/-- Settles O31: PREPARE leaves the voice with no frequency to glide from. -/
theorem firstNoteAfterPrepareSnaps : Obligations.FirstNoteAfterPrepareSnaps := by
  intro nchf srw n s hn hsr
  obtain ⟨c, hc⟩ := channelsOfCount_isSome hn
  rw [runInstrs_cons_of_next (exec_prepare_some hc srw s), runInstrs_cons_of_next (exec_noteOn n _)]
  exact ⟨_, rfl, noteOnWith_snaps_of_curFreq_zero units n hsr rfl⟩

end Sys2Proof.Machine

/-!
PROOF. The render step (43_render_tick): what a TICK computes (R190 to R199), the filter memories and outputs of the channels (R201), the
phase bound (R202), the filter coefficient (R197) and the glide (R204).
-/

namespace Sys2Proof.Machine

/-! ### The voice registers of a TICK -/

@[simp] theorem glideStep_phase (sr : F) (v : Voice) : (glideStep sr v).phase = v.phase := by
  rcases glideStep_cases sr v with ⟨-, e⟩ | ⟨-, f, e⟩ <;> rw [e]

@[simp] theorem glideStep_toneZ0 (sr : F) (v : Voice) : (glideStep sr v).toneZ0 = v.toneZ0 := by
  rcases glideStep_cases sr v with ⟨-, e⟩ | ⟨-, f, e⟩ <;> rw [e]

/-- What a glide step leaves, with a glide in progress and with none (R191). -/
theorem glideStep_eq_ite (sr : F) (v : Voice) :
    glideStep sr v =
      let f := if v.glideRem = 0#32 then v.curFreq else fadd v.curFreq (fdiv (fsub v.tgtFreq v.curFreq) (u2f v.glideRem))
      { v with
        curFreq := f
        phaseDelta := if v.glideRem = 0#32 then v.phaseDelta else deltaOf f sr
        glideRem := if v.glideRem = 0#32 then 0#32 else v.glideRem - 1#32 } := by
  by_cases h : v.glideRem = 0#32
  · rw [glideStep_of_rem_zero sr h]
    simp only [h, if_true]
    rw [← h]
  · simp only [h, if_false]
    rw [glideStep, if_pos (by bv_omega)]

/-- The glide count goes down by one and stops at 0 (R191). -/
theorem glideStep_glideRem_toNat (sr : F) (v : Voice) : (glideStep sr v).glideRem.toNat = v.glideRem.toNat - 1 := by
  rcases glideStep_cases sr v with ⟨h0, e⟩ | ⟨hne, f, e⟩
  · simp [e, h0]
  · simp only [e]
    bv_omega

section
variable (u : MathUnits) (p : Params) (sr : F) (nch : Channels) (env : F) (v : Voice)

theorem voiceTick_phase : (voiceTick u p sr nch env v).phase = phaseAdvance v.phase (glideStep sr v).phaseDelta := by
  simp only [voiceTick, glideStep_phase]

/-- In stereo the same coefficient and sample reach both filters, so equal memories stay equal (R201). -/
theorem voiceTick_stereo_toneZ1 {v : Voice} (h : v.toneZ1 = v.toneZ0) :
    (voiceTick u p sr .stereo env v).toneZ1 = (voiceTick u p sr .stereo env v).toneZ0 := by
  simp only [voiceTick, glideStep_toneZ0, glideStep_toneZ1, h]

end

/-- An enabled TICK advances the voice and returns the outputs of the voice it leaves (R190). -/
theorem exec_tick_voice {s : State} (h : srValid s = true) :
    ∃ t, exec .tick s = .next t ∧ srValid t = true ∧ t.env = envNextSample s.psnap s.sr s.env ∧
      t.voice = voiceTick units s.psnap s.sr s.nch t.env.level s.voice ∧
      t.rsp = some (frameResponse (outputFrame s.psnap.gain s.nch t.voice)) :=
  ⟨_, exec_tick s, by rw [tickWith_enabled _ h]; exact ⟨h, rfl, rfl, rfl⟩⟩

/-! ### What a command or a step does to the channel count, the phase and the filter memories -/

/-- They are reset with the voice, kept, or advanced by a TICK. -/
def SoundStep (s t : State) : Prop :=
  t.voice = Voice.zero ∨
    (t.nch = s.nch ∧ t.voice.phase = s.voice.phase ∧ t.voice.toneZ0 = s.voice.toneZ0 ∧ t.voice.toneZ1 = s.voice.toneZ1) ∨
    (t.nch = s.nch ∧ ∃ level, t.voice = voiceTick units s.psnap s.sr s.nch level s.voice)

theorem SoundStep.of_kept {s t : State} (hnch : t.nch = s.nch) (hvoice : t.voice = s.voice) : SoundStep s t :=
  .inr (.inl ⟨hnch, by rw [hvoice], by rw [hvoice], by rw [hvoice]⟩)

theorem exec_soundStep {i : Instr} {s t : State} (h : exec i s = .next t) : SoundStep s t := by
  cases i with
  | nop | readReg | writeParam | beginBlock =>
    obtain ⟨-, hnch, hvoice, -⟩ := frameOfTheRegisterCommands _ s t (by simp [Instr.opcode]) h
    exact .of_kept hnch hvoice
  | noteOn | noteOff | allSoundOff =>
    obtain ⟨-, -, -, hnch, hphase, hz0, hz1, -⟩ := frameOfTheNoteCommands _ s t (by simp [Instr.opcode]) h
    exact .inr (.inl ⟨hnch, hphase, hz0, hz1⟩)
  | prepare n r =>
    cases hc : channelsOfCount n with
    | none => rw [exec_prepare_none hc] at h; cases h; exact .of_kept (raiseFault_nch _ s) (raiseFault_voice _ s)
    | some c => rw [exec_prepare_some hc] at h; cases h; exact .inl rfl
  | tick =>
    rw [exec_tick] at h; cases h
    cases hv : srValid s with
    | true => rw [tickWith_enabled _ hv]; exact .inr (.inr ⟨rfl, _, rfl⟩)
    | false => rw [tickWith_disabled _ hv]; exact .of_kept rfl rfl

theorem step_soundStep {s t : State} (h : step s = .next t) : SoundStep s t := by
  rcases step_cases h with ⟨-, rfl⟩ | ⟨tr, s', i, h0, -, hexec⟩ | ⟨tr, s', c, h0, -, rfl⟩
  · exact .of_kept rfl rfl
  · have hstep := exec_soundStep hexec
    rw [(takeTransaction_cases h0).2] at hstep
    exact hstep
  · have hkept : SoundStep s' (raiseFault c s') := .of_kept (raiseFault_nch c s') (raiseFault_voice c s')
    rw [(takeTransaction_cases h0).2] at hkept ⊢
    exact hkept

/-! ### The channels (R201) -/

theorem channelsOk_of_voice_zero {s : State} (h : s.voice = Voice.zero) : ChannelsOk s := by
  unfold ChannelsOk
  rw [h]
  cases s.nch <;> rfl

/-- A TICK keeps the second memory in mono, and gives both the same value in stereo. -/
theorem channelsOk_of_voiceTick {s t : State} {level : F} (hs : ChannelsOk s) (hnch : t.nch = s.nch)
    (hvoice : t.voice = voiceTick units s.psnap s.sr s.nch level s.voice) : ChannelsOk t := by
  unfold ChannelsOk at hs ⊢
  rw [hvoice, hnch]
  cases hc : s.nch with
  | mono => rw [hc] at hs; exact (voiceTick_mono_toneZ1 ..).trans hs
  | stereo => rw [hc] at hs; exact voiceTick_stereo_toneZ1 _ _ _ _ hs

theorem soundStep_channelsOk {s t : State} (hs : ChannelsOk s) (h : SoundStep s t) : ChannelsOk t := by
  rcases h with hzero | ⟨hnch, -, hz0, hz1⟩ | ⟨hnch, level, hvoice⟩
  · exact channelsOk_of_voice_zero hzero
  · unfold ChannelsOk
    rw [hnch, hz0, hz1]
    exact hs
  · exact channelsOk_of_voiceTick hs hnch hvoice

/-! ### The phase (R202) -/

theorem inTurn_zero : inTurn fZero := ⟨by decide +kernel, by decide +kernel⟩

theorem soundStep_phase_inTurn {s t : State} (hs : inTurn s.voice.phase) (h : SoundStep s t) (hdelta : inTurn t.voice.phaseDelta) :
    inTurn t.voice.phase := by
  rcases h with hzero | ⟨-, hphase, -, -⟩ | ⟨-, level, hvoice⟩
  · rw [hzero]; exact inTurn_zero
  · rwa [hphase]
  · rw [hvoice, voiceTick_phaseDelta] at hdelta
    rw [hvoice, voiceTick_phase]
    exact phaseAdvance_inTurn hs hdelta

/-! ### The filter coefficient (R197) -/

/-- A number over a finite value other than zero is a number. -/
theorem isNaN_fdiv {a b : F} (ha : isNaN a = false) (hb : isFinite b = true) (h0 : fUnits b ≠ 0) : isNaN (fdiv a b) = false := by
  simp only [fdiv, ha, isNaN_of_isFinite hb, isInf_of_isFinite hb, fMag_ne_zero h0, Bool.or_self, Bool.false_eq_true, if_false]
  split
  · exact isNaN_packF _ (le_refl infMag)
  · exact isNaN_roundF _ _ _

/-- EXP of a number is a number that is not negative (00_scope R17). -/
theorem fle_fZero_conformExp (f : F → F) {x : F} (hx : isNaN x = false) : fle fZero (conformExp f x) = true := by
  unfold conformExp
  split
  · decide +kernel
  · split
    · decide +kernel
    · next h => simpa [hx] using h

theorem inUnit_clampf {x : F} (hx : isNaN x = false) : inUnit (clampf x fZero fOne) := by
  have hzero : isNaN fZero = false ∧ fUnits fZero = 0 := by decide +kernel
  have hone : isNaN fOne = false ∧ fUnits fOne = 2 ^ 149 := by decide +kernel
  unfold clampf fgt
  split
  · exact inUnit_zero
  · next hlo =>
    split
    · exact inUnit_one
    · next hhi =>
      simp only [flt_iff, hx, hzero, hone, true_and, not_lt] at hlo hhi
      exact inUnit_iff.2 ⟨hx, hlo, hhi⟩

/-! ### The last glide step (R204(c)) -/

/-- The divisor of the last glide step, a count of 1, is 1.0. -/
theorem u2f_one : u2f 1#32 = fOne := by decide +kernel

theorem fdiv_fOne {a : F} (ha : isFinite a = true) : fdiv a fOne = a := by
  have hone : isFinite fOne = true ∧ fMag fOne ≠ 0 ∧ fSign fOne = false ∧ magUnits (fMag fOne) = 2 ^ 149 := by decide +kernel
  obtain ⟨hfin, hmag, hsign, hunits⟩ := hone
  have hround : roundMag (magUnits (fMag a) * 2 ^ 149) (2 ^ 149) = fMag a :=
    roundMag_exact (by decide) (isFinite_iff.1 ha).le
  rw [fdiv_finite ha hfin hmag, hsign, hunits, Bool.bne_false, roundF, hround, packF_fields]

/-- Where the difference of two positive values is exact, it leads from the one to the other bit for bit. -/
theorem fadd_fsub_cancel {a b : F} (ha : isFinite a = true) (hb : isFinite b = true) (ha0 : 0 < fUnits a) (hb0 : 0 < fUnits b)
    (hab : fUnits a ≤ 2 * fUnits b) (hba : fUnits b ≤ 2 * fUnits a) :
    isFinite (fsub b a) = true ∧ fadd a (fsub b a) = b := by
  obtain ⟨hnan, hdiff⟩ := fsub_exact hb ha hb0 ha0 hba hab
  have hfin : isFinite (fsub b a) = true := by
    rcases isFinite_or_isInf hnan with hf | hinf
    · exact hf
    · have hA := abs_fUnits_le_of_isFinite ha hinf
      have hB := abs_fUnits_le_of_isFinite hb hinf
      omega
  have hsum : fUnits (fadd a (fsub b a)) = fUnits b := by
    rw [(fadd_finite ha hfin).2, hdiff, add_sub_cancel, roundInt_fUnits (isNaN_of_isFinite hb)]
  exact ⟨hfin, eq_of_fUnits_eq hsum hb0.ne'⟩

/-! ### The obligations -/

/-- Settles O44: the memories are reset, kept, or filtered by one TICK. -/
theorem stepKeepsTheChannelsEqual : Obligations.StepKeepsTheChannelsEqual :=
  fun _ _ hs h => soundStep_channelsOk hs (step_soundStep h)

/-- Settles O46: the phase is reset, kept, or advanced once by the increment that the step leaves. -/
theorem stepKeepsThePhaseBelowTwoPi : Obligations.StepKeepsThePhaseBelowTwoPi :=
  fun _ _ hs h hdelta => soundStep_phase_inTurn hs (step_soundStep h) hdelta

/-- Settles O45: enabled, the outputs are the same product of equal memories in stereo; disabled, both are +0.0. -/
theorem tickOutputsAgree : Obligations.TickOutputsAgree := by
  intro s hs
  cases hv : srValid s with
  | false =>
    refine ⟨_, _, exec_tick s, by rw [tickWith_disabled _ hv]; rfl, fun _ => rfl, fun _ => rfl⟩
  | true =>
    obtain ⟨t, ht, -, -, hvoice, hrsp⟩ := exec_tick_voice hv
    refine ⟨t, _, ht, hrsp, fun hst => ?_, fun hmono => ?_⟩
    · unfold ChannelsOk at hs
      rw [hst] at hs hvoice
      rw [hst, outputFrame, hvoice, voiceTick_stereo_toneZ1 _ _ _ _ hs]
    · rw [hmono]; rfl

/-- Settles O49: EXP's argument is a number, so its value is one, and the clamp bounds it. -/
theorem alphaLiesInTheUnitInterval : Obligations.AlphaLiesInTheUnitInterval := by
  intro tone sr htone hsr
  obtain ⟨hfin, hpos⟩ := rateValid_iff.1 hsr
  have hprod : isNaN (fmul negTwoPi tone) = false := by
    rw [fmul_finite (by decide +kernel) (isFinite_of_inRange htone)]
    exact isNaN_roundF _ _ _
  have harg : isNaN (fdiv (fmul negTwoPi tone) sr) = false := isNaN_fdiv hprod hfin (by omega)
  obtain ⟨-, hexp, -⟩ := fle_iff.1 (fle_fZero_conformExp Config.rawExp harg)
  exact inUnit_clampf hexp

/-- Settles O50, by induction on the number of TICKs from any enabled state. -/
theorem glideEndsAfterItsCount : Obligations.GlideEndsAfterItsCount := by
  intro n
  induction n with
  | zero => exact fun s _ => ⟨s, rfl, rfl⟩
  | succ n ih =>
    intro s hv
    obtain ⟨s', hs', hv', -, hvoice, -⟩ := exec_tick_voice hv
    obtain ⟨t, ht, hrem⟩ := ih s' hv'
    refine ⟨t, by rw [List.replicate_succ, runInstrs_cons_of_next hs', ht], ?_⟩
    rw [hrem, hvoice, voiceTick_glideRem, glideStep_glideRem_toNat]
    omega

/-- Settles O51: the divisor is 1.0 and the difference is exact, by Sterbenz's lemma. -/
theorem lastGlideStepLandsOnTheTarget : Obligations.LastGlideStepLandsOnTheTarget := by
  intro s hv hrem hcf htf hc0 ht0 hct htc
  obtain ⟨t, ht, -, -, hvoice, -⟩ := exec_tick_voice hv
  obtain ⟨hfin, hcancel⟩ := fadd_fsub_cancel hcf htf hc0 ht0 hct htc
  have hne : 1#32 ≠ 0#32 := by decide
  refine ⟨t, ht, ?_, ?_⟩
  · rw [hvoice, voiceTick_curFreq, glideStep_eq_ite]
    simp only [hrem, hne, if_false, u2f_one, fdiv_fOne hfin, hcancel]
  · rw [hvoice, voiceTick_glideRem, glideStep_eq_ite, hrem]
    rfl

/-- Settles O43: with a glide in progress or not, in mono and in stereo, each register is by definition its formula. -/
theorem tickComputesTheSampleInOrder : Obligations.TickComputesTheSampleInOrder := by
  intro s hv p v cur delta alpha moved
  obtain ⟨t, ht, -, -, hvoice, hrsp⟩ := exec_tick_voice hv
  refine ⟨t, ht, ?_⟩
  rw [hrsp, hvoice]
  cases hnch : s.nch with
  | mono =>
    simp only [voiceTick, glideStep_eq_ite, outputFrame, if_true]
    exact ⟨rfl, rfl⟩
  | stereo =>
    simp only [voiceTick, glideStep_eq_ite, outputFrame, reduceCtorEq, if_false]
    exact ⟨rfl, rfl⟩

end Sys2Proof.Machine

/-!
PROOF. NOP (44_access): the all-zero command word is on its row whatever the data word, and the command only answers (R221).
-/

namespace Sys2Proof.Machine

/-- The all-zero word is the match word of NOP's row, and NOP reads no operand from either word (30_encoding R94, R97). -/
theorem decode_zero (data : Word) : decode ⟨0x00000000#32, data⟩ = .ok .nop :=
  decode_eq_ok_iff.2 ⟨.nop, BitVec.zero_and, rfl⟩

/-- Settles O20: the zero word decodes to NOP, whose next state is the state answered with 0 and no frame. -/
theorem nopChangesNoRegister : Obligations.NopChangesNoRegister :=
  fun s data => ⟨decode_zero data, exec_nop s⟩

end Sys2Proof.Machine

/-!
PROOF. The fault record is sticky (60_exceptions R234, R236): once FAULT is 1 with a code, every command and every further fault
keep both.
-/

namespace Sys2Proof.Machine

/-- FAULT is 1 and FAULT_CAUSE holds the code `k`. -/
def RecordedWith (k : BitVec 4) (s : State) : Prop := s.fault = true ∧ s.faultCause = k

/-- A fault raised over a record keeps that record's cause (R234). -/
theorem raiseFault_recordedWith {k : BitVec 4} (c : FaultCause) {s : State} (hs : RecordedWith k s) :
    RecordedWith k (raiseFault c s) := by
  obtain ⟨hfault, hcause⟩ := hs
  refine ⟨raiseFault_fault c s, ?_⟩
  rw [raiseFault_faultCause, if_pos hfault, hcause]

theorem exec_recordedWith {k : BitVec 4} {i : Instr} {s t : State} (hs : RecordedWith k s) (h : exec i s = .next t) :
    RecordedWith k t := by
  rcases exec_fault_cases h with ⟨hfault, hcause⟩ | ⟨c, rfl⟩
  · exact ⟨hfault.trans hs.1, hcause.trans hs.2⟩
  · exact raiseFault_recordedWith c hs

/-- Settles O14: a step executes a command or raises a fault, and each keeps the code that is recorded. -/
theorem faultRecordIsSticky : Obligations.FaultRecordIsSticky := by
  intro s t h hfault
  have hs : RecordedWith s.faultCause s := ⟨hfault, rfl⟩
  exact step_keeps (fun _ _ _ _ hp => hp) (fun _ _ _ => exec_recordedWith) (fun c _ => raiseFault_recordedWith c) h hs

end Sys2Proof.Machine

/-!
PROOF. Steps (20_memory R76, R77; 60_exceptions R244): the arbiter's choice, and what a step does with and without a transaction.
-/

namespace Sys2Proof.Machine

/-- Settles O10: a step decodes the transaction taken and executes what it decodes to. -/
theorem stepRunsTheDecodedInstruction : Obligations.StepRunsTheDecodedInstruction :=
  fun _ _ _ _ htake hdecode => step_of_ok htake hdecode

/-- Settles O11: with both queues empty no transaction is taken. -/
theorem stepKeepsAllStateWhileNoCommandArrives : Obligations.StepKeepsAllStateWhileNoCommandArrives :=
  fun _ haudio hcontrol => step_of_none (takeTransaction_eq_none.2 ⟨haudio, hcontrol⟩)

/-- Settles O12: with a transaction pending one is taken, from one of the two queues. -/
theorem arbiterKeepsEachAgentsOrder : Obligations.ArbiterKeepsEachAgentsOrder := by
  intro s hpending
  cases htake : takeTransaction s with
  | none => exact absurd (takeTransaction_eq_none.1 htake) hpending
  | some p => exact ⟨p.1, p.2, rfl, takeTransaction_cases htake⟩

end Sys2Proof.Machine

/-!
PROOF. The function units (00_scope R17): the correction gives each function its properties and leaves a function that has them alone.
-/

namespace Sys2Proof.Machine

/-! ### Values by their sign -/

/-- The numbers worth zero are the two zeros (00_scope R13). -/
theorem zeros_of_fUnits_eq_zero {x : F} (hx : isNaN x = false) (h : fUnits x = 0) : x = fZero ∨ x = 0x80000000#32 := by
  have hzero : isNaN fZero = false ∧ fUnits fZero = 0 := by decide +kernel
  exact feq_fZero_iff.1 (feq_iff.2 ⟨hx, hzero.1, h.trans hzero.2.symm⟩)

theorem fgt_fZero_iff {x : F} : fgt x fZero = true ↔ isNaN x = false ∧ 0 < fUnits x := by
  have hzero : isNaN fZero = false ∧ fUnits fZero = 0 := by decide +kernel
  simp [fgt, flt_iff, hzero]

/-- A number is +0.0, a positive number, or the negation of one of these. -/
theorem number_sign_cases {P : F → Prop} (hzero : P fZero) (hpos : ∀ y, fgt y fZero = true → P y)
    (hneg : ∀ y, isNaN y = false → P y → P (fneg y)) {x : F} (hx : isNaN x = false) : P x := by
  rcases lt_trichotomy (fUnits x) 0 with hlt | h0 | hgt
  · have hopp : fgt (fneg x) fZero = true := by
      rw [fgt_fZero_iff, isNaN_fneg, fUnits_fneg]
      exact ⟨hx, by omega⟩
    rw [← fneg_fneg x]
    exact hneg _ (by rw [isNaN_fneg, hx]) (hpos _ hopp)
  · rcases zeros_of_fUnits_eq_zero hx h0 with rfl | rfl
    · exact hzero
    · exact hneg fZero (by decide +kernel) hzero
  · exact hpos x (fgt_fZero_iff.2 ⟨hx, hgt⟩)

/-! ### TANH is determined by its positive arguments -/

theorem conformTanhPos_pos (f : F → F) (x : F) : fgt (conformTanhPos f x) fZero = true := by
  unfold conformTanhPos
  split
  · assumption
  · decide +kernel

theorem conformTanh_of_pos (f : F → F) {x : F} (h : fgt x fZero = true) : conformTanh f x = conformTanhPos f x := by
  obtain ⟨hnan, hpos⟩ := fgt_fZero_iff.1 h
  simp [conformTanh, hnan, (fMag_pos hpos).ne', fSign_of_nonneg hpos]

theorem conformTanh_fneg (f : F → F) {x : F} (h : isNaN x = false) : conformTanh f (fneg x) = fneg (conformTanh f x) := by
  simp only [conformTanh, isNaN_fneg, fMag_fneg, fSign_fneg, h, fneg_fneg, Bool.false_eq_true, if_false]
  split
  · rfl
  · cases fSign x
    · rfl
    · simp [fneg_fneg]

/-! ### The correction gives the properties -/

theorem conformSin_fZero (f : F → F) : conformSin f fZero = fZero := if_pos rfl

theorem conformExp_fZero (f : F → F) : conformExp f fZero = fOne := if_pos rfl

theorem conformTanh_fZero (f : F → F) : conformTanh f fZero = fZero := by
  rw [conformTanh, if_neg (by decide +kernel), if_pos (by decide +kernel)]

theorem conformSin_range (f : F → F) {x : F} (h : isFinite x = true) :
    fle (fneg fOne) (conformSin f x) = true ∧ fle (conformSin f x) fOne = true := by
  have hzero : fle (fneg fOne) fZero = true ∧ fle fZero fOne = true := by decide +kernel
  unfold conformSin
  split
  · exact hzero
  · split
    · exact hzero
    · next hin => simpa [h] using hin

/-- Any functions, corrected, have the properties of R17. -/
theorem conform_conforming (u : MathUnits) : u.conform.Conforming where
  sin_zero := conformSin_fZero u.sin
  sin_range _ h := conformSin_range u.sin h
  tanh_zero := conformTanh_fZero u.tanh
  tanh_odd _ h := conformTanh_fneg u.tanh h
  tanh_pos x h := by
    show fgt (conformTanh u.tanh x) fZero = true
    rw [conformTanh_of_pos u.tanh h]
    exact conformTanhPos_pos u.tanh x
  exp_range _ h := fle_fZero_conformExp u.exp h
  exp_zero := conformExp_fZero u.exp
  exp2_exact x k h := by
    show conformExp2 u.exp2 x = powerOfTwo k
    rw [conformExp2, h]

/-! ### The correction leaves functions with the properties alone -/

section
variable {u : MathUnits} (hu : u.Conforming)
include hu

theorem conformSin_of_conforming : conformSin u.sin = u.sin := by
  funext x
  unfold conformSin
  split
  · next h => rw [h, hu.sin_zero]
  · split
    · next h =>
      obtain ⟨hx, hout⟩ := Bool.and_eq_true_iff.1 h
      simp [hu.sin_range x hx] at hout
    · rfl

theorem conformTanh_of_conforming : conformTanh u.tanh = u.tanh := by
  funext x
  cases hx : isNaN x with
  | true => simp [conformTanh, hx]
  | false =>
    refine number_sign_cases (P := fun x => conformTanh u.tanh x = u.tanh x) ?_ (fun y hy => ?_) (fun y hy ih => ?_) hx
    · rw [conformTanh_fZero, hu.tanh_zero]
    · rw [conformTanh_of_pos _ hy, conformTanhPos, if_pos (hu.tanh_pos y hy)]
    · rw [conformTanh_fneg _ hy, ih, hu.tanh_odd y hy]

theorem conformExp_of_conforming : conformExp u.exp = u.exp := by
  funext x
  unfold conformExp
  split
  · next h => rw [h, hu.exp_zero]
  · split
    · next h =>
      obtain ⟨hx, hout⟩ := Bool.and_eq_true_iff.1 h
      simp [hu.exp_range x (by simpa using hx)] at hout
    · rfl

theorem conformExp2_of_conforming : conformExp2 u.exp2 = u.exp2 := by
  funext x
  unfold conformExp2
  split
  · next k hk => exact (hu.exp2_exact x k hk).symm
  · rfl

theorem conform_of_conforming : u.conform = u := by
  rw [MathUnits.conform, conformSin_of_conforming hu, conformTanh_of_conforming hu, conformExp_of_conforming hu,
    conformExp2_of_conforming hu]

theorem isNaN_tanh {x : F} (hx : isNaN x = false) : isNaN (u.tanh x) = false := by
  refine number_sign_cases (P := fun x => isNaN (u.tanh x) = false) ?_ (fun y hy => ?_) (fun y hy ih => ?_) hx
  · rw [hu.tanh_zero]; decide +kernel
  · exact (fgt_fZero_iff.1 (hu.tanh_pos y hy)).1
  · rw [hu.tanh_odd y hy, isNaN_fneg, ih]

end

/-- Settles O55: the machine's units are corrected functions, and the correction changes no conforming one. -/
theorem functionUnitsHaveTheirProperties : Obligations.FunctionUnitsHaveTheirProperties :=
  ⟨conform_conforming _, fun _ hu => conform_of_conforming hu⟩

end Sys2Proof.Machine

/-!
PROOF. The drive and the color stage (43_render_tick R194, R195, R203): products and quotients follow the sign of an operand, and zeros
and 1.0 act as in exact arithmetic.
-/

namespace Sys2Proof.Machine

/-! ### Products -/

theorem fneg_roundF (neg : Bool) (num den : Nat) : fneg (roundF neg num den) = roundF (!neg) num den :=
  fneg_packF neg (roundMag_lt num den)

theorem isFinite_packF_zero (neg : Bool) : isFinite (packF neg 0) = true := by cases neg <;> decide +kernel

section
variable {a : F} (ha : isFinite a = true)
include ha

theorem fmul_inf {b : F} (h0 : fMag a ≠ 0) (hb : isInf b = true) : fmul a b = packF (fSign a != fSign b) infMag := by
  have hb0 : fMag b ≠ 0 := by rw [beq_iff_eq.1 hb]; decide
  simp [fmul, isNaN_of_isFinite ha, isNaN_of_isInf hb, isInf_of_isFinite ha, hb, h0, hb0]

theorem isNaN_fmul {b : F} (h0 : fMag a ≠ 0) (hb : isNaN b = false) : isNaN (fmul a b) = false := by
  rcases isFinite_or_isInf hb with hfin | hinf
  · rw [fmul_finite ha hfin]; exact isNaN_roundF _ _ _
  · rw [fmul_inf ha h0 hinf]; exact isNaN_packF _ (le_refl infMag)

theorem fmul_fneg {b : F} (h0 : fMag a ≠ 0) (hb : isNaN b = false) : fmul a (fneg b) = fneg (fmul a b) := by
  rcases isFinite_or_isInf hb with hfin | hinf
  · rw [fmul_finite ha hfin, fmul_finite ha (by rwa [isFinite_fneg]), fMag_fneg, fSign_fneg, Bool.bne_not, fneg_roundF]
  · rw [fmul_inf ha h0 hinf, fmul_inf ha h0 (by rwa [isInf_fneg]), fSign_fneg, Bool.bne_not, fneg_packF _ infMag_lt]

theorem fmul_fOne : fmul a fOne = a := by
  have hone : isFinite fOne = true ∧ fSign fOne = false ∧ magUnits (fMag fOne) = 2 ^ 149 := by decide +kernel
  obtain ⟨hfin, hsign, hunits⟩ := hone
  have hround : roundMag (magUnits (fMag a) * 2 ^ 149) (2 ^ 149) = fMag a :=
    roundMag_exact (by decide) (isFinite_iff.1 ha).le
  rw [fmul_finite ha hfin, hsign, hunits, Bool.bne_false, roundF, hround, packF_fields]

/-- A finite value times a zero is a zero. -/
theorem fmul_packF_zero (neg : Bool) : fmul a (packF neg 0) = packF (fSign a != neg) 0 := by
  rw [fmul_finite ha (isFinite_packF_zero neg), fSign_packF neg (by decide), fMag_packF neg (by decide), magUnits_zero,
    Nat.mul_zero, roundF, roundMag_zero (by decide)]

/-- A zero times a finite value is a zero. -/
theorem packF_zero_fmul (neg : Bool) : fmul (packF neg 0) a = packF (neg != fSign a) 0 := by
  rw [fmul_finite (isFinite_packF_zero neg) ha, fSign_packF neg (by decide), fMag_packF neg (by decide), magUnits_zero,
    Nat.zero_mul, roundF, roundMag_zero (by decide)]

end

/-! ### Quotients -/

section
variable {b : F} (hb : isFinite b = true)
include hb

theorem fdiv_of_isInf {a : F} (ha : isInf a = true) : fdiv a b = packF (fSign a != fSign b) infMag := by
  simp [fdiv, isNaN_of_isInf ha, isNaN_of_isFinite hb, ha, isInf_of_isFinite hb]

theorem fdiv_fneg (h0 : fMag b ≠ 0) {a : F} (ha : isNaN a = false) : fdiv (fneg a) b = fneg (fdiv a b) := by
  rcases isFinite_or_isInf ha with hfin | hinf
  · rw [fdiv_finite hfin hb h0, fdiv_finite (by rwa [isFinite_fneg]) hb h0, fMag_fneg, fSign_fneg, Bool.not_bne, fneg_roundF]
  · rw [fdiv_of_isInf hb hinf, fdiv_of_isInf hb (by rwa [isInf_fneg]), fSign_fneg, Bool.not_bne, fneg_packF _ infMag_lt]

/-- The quotient of a finite value other than zero by itself is 1.0, by which DRIVE keeps full scale (R203). -/
theorem fdiv_self (h0 : fMag b ≠ 0) : fdiv b b = fOne := by
  have hone : 2 ^ 149 = magUnits (fMag fOne) ∧ fMag fOne ≤ infMag ∧ packF false (fMag fOne) = fOne := by decide +kernel
  obtain ⟨hunits, hle, hpack⟩ := hone
  have hden : 0 < magUnits (fMag b) := Nat.pos_of_ne_zero (magUnits_eq_zero.not.2 h0)
  rw [fdiv_finite hb hb h0, bne_self_eq_false, hunits, Nat.mul_comm, roundF, roundMag_exact hden hle, hpack]

theorem fZero_fdiv (h0 : fMag b ≠ 0) : fdiv fZero b = packF (fSign b) 0 := by
  have hzero : isFinite fZero = true ∧ fSign fZero = false ∧ magUnits (fMag fZero) = 0 := by decide +kernel
  obtain ⟨hfin, hsign, hunits⟩ := hzero
  have hden : 0 < magUnits (fMag b) := Nat.pos_of_ne_zero (magUnits_eq_zero.not.2 h0)
  rw [fdiv_finite hfin hb h0, hsign, hunits, Bool.false_bne, Nat.zero_mul, roundF, roundMag_zero hden]

end

/-! ### The drive stage (R194) -/

/-- The gain of the drive stage for a drive in range above 0 is finite and positive: 2.5 bounds it, and it is no smaller than the
drive. -/
theorem driveGain_pos {d : F} (hd : inRange .drive d) (h0 : fgt d fZero = true) :
    isFinite (fmul d fKMax) = true ∧ fgt (fmul d fKMax) fZero = true := by
  have hk : isFinite fKMax = true ∧ fMag fKMax < infMag ∧ 2 ^ 149 ≤ fUnits fKMax := by decide +kernel
  have hone : fUnits (paramHi .drive) = 2 ^ 149 := by decide +kernel
  obtain ⟨hkfin, hkmag, hkone⟩ := hk
  have hdfin := isFinite_of_inRange hd
  obtain ⟨-, hpos⟩ := fgt_fZero_iff.1 h0
  obtain ⟨hnan, hge⟩ := fmul_ge_left hdfin hkfin hpos hkone
  obtain ⟨-, -, hle⟩ := fle_iff.1 hd.2
  have hdunits : magUnits (fMag d) ≤ 2 ^ 149 := by rw [hone, fUnits_of_pos hpos] at hle; exact_mod_cast hle
  refine ⟨?_, fgt_fZero_iff.2 ⟨hnan, by omega⟩⟩
  rw [fmul_finite hdfin hkfin, roundF, isFinite_iff, fMag_packF _ (roundMag_lt _ _)]
  refine lt_of_le_of_lt (roundMag_le_of_le (by positivity) hkmag.le ?_) hkmag
  rw [Nat.mul_comm]
  exact Nat.mul_le_mul_left _ hdunits

theorem driveStage_of_pos (u : MathUnits) {d : F} (h : fgt d fZero = true) (x : F) :
    driveStage u d x = fdiv (u.tanh (fmul (fmul d fKMax) x)) (u.tanh (fmul d fKMax)) := if_pos h

section
variable {u : MathUnits} {d : F} (hu : u.Conforming) (hd : inRange .drive d) (h0 : fgt d fZero = true)
  (ht : isFinite (u.tanh (fmul d fKMax)) = true)
include hu hd h0

/-- The divisor of the drive stage is positive. -/
theorem driveDivisor_pos : 0 < fUnits (u.tanh (fmul d fKMax)) :=
  (fgt_fZero_iff.1 (hu.tanh_pos _ (driveGain_pos hd h0).2)).2

include ht

theorem driveStage_fneg {x : F} (hx : isNaN x = false) : driveStage u d (fneg x) = fneg (driveStage u d x) := by
  obtain ⟨hfin, hgain⟩ := driveGain_pos hd h0
  have hmag : fMag (fmul d fKMax) ≠ 0 := (fMag_pos (fgt_fZero_iff.1 hgain).2).ne'
  have hprod : isNaN (fmul (fmul d fKMax) x) = false := isNaN_fmul hfin hmag hx
  rw [driveStage_of_pos u h0, driveStage_of_pos u h0, fmul_fneg hfin hmag hx, hu.tanh_odd _ hprod,
    fdiv_fneg ht (fMag_pos (driveDivisor_pos hu hd h0)).ne' (isNaN_tanh hu hprod)]

theorem driveStage_fOne : driveStage u d fOne = fOne := by
  rw [driveStage_of_pos u h0, fmul_fOne (driveGain_pos hd h0).1, fdiv_self ht (fMag_pos (driveDivisor_pos hu hd h0)).ne']

theorem driveStage_fZero : driveStage u d fZero = fZero := by
  obtain ⟨hfin, hgain⟩ := driveGain_pos hd h0
  have hpos := driveDivisor_pos hu hd h0
  have hprod : fmul (fmul d fKMax) fZero = fZero := by
    show fmul _ (packF false 0) = packF false 0
    rw [fmul_packF_zero hfin, fSign_of_nonneg (fgt_fZero_iff.1 hgain).2]
    rfl
  rw [driveStage_of_pos u h0, hprod, hu.tanh_zero, fZero_fdiv ht (fMag_pos hpos).ne', fSign_of_nonneg hpos]
  rfl

end

/-! ### The color stage (R195) -/

/-- Adding a zero of either sign gives the value bit for bit, but for −0.0. -/
theorem addOr_packF_zero {a : F} (ha : isFinite a = true) (hne : a ≠ 0x80000000#32) (nan : F) (neg : Bool) :
    addOr nan a (packF neg 0) = a := by
  have hz : fUnits (packF neg 0) = 0 := by cases neg <;> decide +kernel
  by_cases h0 : fUnits a = 0
  · obtain rfl := (zeros_of_fUnits_eq_zero (isNaN_of_isFinite ha) h0).resolve_right hne
    cases neg <;> rfl
  · refine eq_of_fUnits_eq ?_ h0
    rw [(addOr_finite ha (isFinite_packF_zero neg)).2, hz, Int.add_zero, roundInt_fUnits (isNaN_of_isFinite ha)]

/-- A finite value times a zero color and then 0.5 is a zero. -/
theorem fmul_zero_half {a : F} (ha : isFinite a = true) (neg : Bool) :
    fmul (fmul a (packF neg 0)) fHalf = packF (fSign a != neg) 0 := by
  have hhalf : isFinite fHalf = true ∧ fSign fHalf = false := by decide +kernel
  rw [fmul_packF_zero ha, packF_zero_fmul hhalf.1, hhalf.2, Bool.bne_false]

/-! ### The obligations -/

/-- Settles O47: 1.0 gives TANH(k)/TANH(k), +0.0 gives TANH(+0.0)/TANH(k), and the stage is odd since each of its operators is. -/
theorem driveKeepsFullScaleZeroAndSign : Obligations.DriveKeepsFullScaleZeroAndSign := by
  intro u d x hu hd h0 ht hx
  have hone := driveStage_fOne hu hd h0 ht
  have hzero := driveStage_fZero hu hd h0 ht
  have hodd : ∀ {y}, isNaN y = false → driveStage u d (fneg y) = fneg (driveStage u d y) := driveStage_fneg hu hd h0 ht
  refine ⟨hone, ?_, hzero, ?_, hodd hx⟩
  · exact (hodd (y := fOne) (by decide +kernel)).trans (by rw [hone]; rfl)
  · exact (hodd (y := fZero) (by decide +kernel)).trans (by rw [hzero]; rfl)

/-- Settles O48: both terms that depend on the color are zeros, and the sample plus or minus a zero is the sample. -/
theorem colorZeroIsTheIdentity : Obligations.ColorZeroIsTheIdentity := by
  intro z x hx _ hdiff hne
  have hhigh : fmul (fmul (fsub x z) 0x00000000#32) fHalf = packF (fSign (fsub x z)) 0 :=
    (fmul_zero_half hdiff false).trans (by rw [Bool.bne_false])
  have hlow : fmul (fmul x (fneg 0x00000000#32)) fHalf = packF (!fSign x) 0 :=
    (fmul_zero_half hx true).trans (by rw [Bool.bne_true])
  rw [colorStage]
  rw [hhigh, hlow, fadd, addOr_packF_zero hx hne, fsub, fneg_packF _ (by decide), addOr_packF_zero hx hne]

end Sys2Proof.Machine
